-- ==== Sys2Proof/Word.lean ====
section
/-! DEFINITION. The machine word and the register index (spec/00_scope.md R5, R6). -/

namespace Sys2Proof

/-- A 16-bit word: the contents of a register, of the pc and of one memory location (R5, R6). -/
abbrev Word := BitVec 16

/-- The index of a general register, 0 to 7 (R5 `NREG`, R11). -/
abbrev Reg := Fin 8

end Sys2Proof
end

