-- ==== Sys2Proof/Config.lean ====
section
/-! DEFINITION. The parameters of spec/00_scope.md R5: what the spec fixes and the value the model
names for each parameter the spec leaves open. The open ones stay arguments of the definitions that use them
(State.resetWith, catalogWith, runUntil, the assembler); the values here are what State.reset and decode take. -/

namespace Sys2Proof

/-- `BR_PRESENT` (R5, decision D2): the catalog holds the BR template. -/
def Config.brPresent : Bool := true

/-- `TRAP_TABLE_BASE` (R5, R37, decision D10): the trap vector table starts at x0000. -/
def Config.trapTableBase : Word := 0x0000#16

/-- `RESET_PC`. DESIGN CHOICE (log 3), unsafe: R26 leaves it open and suggests x3000. -/
def Config.resetPc : Word := 0x3000#16

/-- `RESET_REGS`. DESIGN CHOICE (log 2), unsafe: R26 leaves all eight registers open. -/
def Config.resetReg : Word := 0x0000#16

/-- `RESET_NZP`. DESIGN CHOICE (log 4), unsafe: R26 leaves the three flags open. -/
def Config.resetFlag : Bool := false

/-- `RESET_PRIV`. DESIGN CHOICE (log 5), unsafe: R26 leaves the mode open. -/
def Config.resetPriv : Bool := true

/-- What a location that nothing has written reads as. DESIGN CHOICE (log 6), unsafe: R26 leaves `RESET_MEM` open. -/
def Config.unlisted : Word := 0x0000#16

end Sys2Proof
end

