-- ==== Sys2Proof/Syntax.lean ====
section
/-! DEFINITION. The instructions as syntax: the template model of spec/30_encoding.md R51 to R54, the nineteen
variants of R60 and one constructor of `Instr` per variant, holding its extracted field values (spec/40_decoder.md R95). -/

namespace Sys2Proof

/-- The kind of a field (R51, R52). A Fixed field carries its constant, an Immediate whether it is sign-extended. -/
inductive FieldKind where
  | fixed (value : Nat)
  | register
  | immediate (signExtend : Bool)
  | label
  deriving DecidableEq, Repr

/-- One field of a template (R51): its kind and its width in bits. -/
structure Field where
  kind  : FieldKind
  width : Nat
  deriving DecidableEq, Repr

/-- The nineteen templates of the catalog (R60), in declaration order. -/
inductive Variant where
  | addReg | addImm | andReg | andImm | not
  | br | ret | jmp | jsr | jsrr
  | ld | ldi | ldr | lea
  | st | sti | str
  | trap | rti
  deriving DecidableEq, Repr

/-- A decoded instruction: a template and the raw values of its variable fields (R94, R95).
A register field is an index, every other field the bit pattern the word holds (R51). -/
inductive Instr where
  /-- #1, R111 -/
  | addReg (dr sr1 sr2 : Reg)
  /-- #2, R112 -/
  | addImm (dr sr1 : Reg) (imm5 : BitVec 5)
  /-- #3, R113 -/
  | andReg (dr sr1 sr2 : Reg)
  /-- #4, R114 -/
  | andImm (dr sr1 : Reg) (imm5 : BitVec 5)
  /-- #5, R115 -/
  | not (dr sr : Reg)
  /-- #6, R130 -/
  | br (nzp : BitVec 3) (off9 : BitVec 9)
  /-- #7, R131 -/
  | ret
  /-- #8, R132 -/
  | jmp (baseR : Reg)
  /-- #9, R133 -/
  | jsr (off11 : BitVec 11)
  /-- #10, R134 -/
  | jsrr (baseR : Reg)
  /-- #11, R150 -/
  | ld (dr : Reg) (off9 : BitVec 9)
  /-- #12, R151 -/
  | ldi (dr : Reg) (off9 : BitVec 9)
  /-- #13, R152 -/
  | ldr (dr baseR : Reg) (off6 : BitVec 6)
  /-- #14, R153 -/
  | lea (dr : Reg) (off9 : BitVec 9)
  /-- #15, R170 -/
  | st (sr : Reg) (off9 : BitVec 9)
  /-- #16, R171 -/
  | sti (sr : Reg) (off9 : BitVec 9)
  /-- #17, R172 -/
  | str (sr baseR : Reg) (off6 : BitVec 6)
  /-- #18, R185 -/
  | trap (vect8 : BitVec 8)
  /-- #19, R187 -/
  | rti
  deriving DecidableEq, Repr

/-- The template an instruction is an instance of. -/
def Instr.variant : Instr → Variant
  | .addReg _ _ _ => .addReg
  | .addImm _ _ _ => .addImm
  | .andReg _ _ _ => .andReg
  | .andImm _ _ _ => .andImm
  | .not _ _ => .not
  | .br _ _ => .br
  | .ret => .ret
  | .jmp _ => .jmp
  | .jsr _ => .jsr
  | .jsrr _ => .jsrr
  | .ld _ _ => .ld
  | .ldi _ _ => .ldi
  | .ldr _ _ _ => .ldr
  | .lea _ _ => .lea
  | .st _ _ => .st
  | .sti _ _ => .sti
  | .str _ _ _ => .str
  | .trap _ => .trap
  | .rti => .rti

end Sys2Proof
end

