-- ==== Sys2Proof/WellFormed.lean ====
section
/-! DEFINITION. Which instructions are what the decoder can give. The types of Instr already bound every field
(spec/30_encoding.md R51, R53: every bit pattern of a variable field is legal); the one check left is the
overlap of spec/30_encoding.md R63: the word of JMP with BaseR = 7 is selected as RET. -/

namespace Sys2Proof

/-- An instruction some word decodes to: all of them but `jmp R7`, whose word xC1C0 is reported as RET (R63, R132). -/
def Instr.wellFormed : Instr → Bool
  | .jmp baseR => baseR != 7
  | _ => true

end Sys2Proof
end

