-- ==== Sys2Proof/Decode.lean ====
section
/-! DEFINITION. The catalog (spec/30_encoding.md R50 to R64), the template selector, the field extractor and the
decoder (spec/40_decoder.md R90 to R99), then the encoder written from the same tables (R73). -/

namespace Sys2Proof

/-! ## The catalog -/

/-- A template's mnemonic (R54, R60); two variants may share one. -/
def Variant.mnemonic : Variant → String
  | .addReg | .addImm => "add"
  | .andReg | .andImm => "and"
  | .not => "not"
  | .br => "br"
  | .ret => "ret"
  | .jmp => "jmp"
  | .jsr => "jsr"
  | .jsrr => "jsrr"
  | .ld => "ld"
  | .ldi => "ldi"
  | .ldr => "ldr"
  | .lea => "lea"
  | .st => "st"
  | .sti => "sti"
  | .str => "str"
  | .trap => "trap"
  | .rti => "rti"

/-- A Fixed field (R51). -/
def fixedField (width value : Nat) : Field := ⟨.fixed value, width⟩

/-- A Register field: always 3 bits (R53). -/
def registerField : Field := ⟨.register, 3⟩

/-- A template's fields, most significant first: the column of R60, in the formats of R58. -/
def Variant.fields : Variant → List Field
  | .addReg => [fixedField 4 0b0001, registerField, registerField, fixedField 3 0, registerField]
  | .addImm => [fixedField 4 0b0001, registerField, registerField, fixedField 1 1, ⟨.immediate true, 5⟩]
  | .andReg => [fixedField 4 0b0101, registerField, registerField, fixedField 3 0, registerField]
  | .andImm => [fixedField 4 0b0101, registerField, registerField, fixedField 1 1, ⟨.immediate true, 5⟩]
  | .not => [fixedField 4 0b1001, registerField, registerField, fixedField 6 0b111111]
  | .br => [fixedField 4 0b0000, ⟨.immediate false, 3⟩, ⟨.label, 9⟩]
  | .ret => [fixedField 4 0b1100, fixedField 3 0, fixedField 3 0b111, fixedField 6 0]
  | .jmp => [fixedField 4 0b1100, fixedField 3 0, registerField, fixedField 6 0]
  | .jsr => [fixedField 4 0b0100, fixedField 1 1, ⟨.label, 11⟩]
  | .jsrr => [fixedField 4 0b0100, fixedField 1 0, fixedField 2 0, registerField, fixedField 6 0]
  | .ld => [fixedField 4 0b0010, registerField, ⟨.label, 9⟩]
  | .ldi => [fixedField 4 0b1010, registerField, ⟨.label, 9⟩]
  | .ldr => [fixedField 4 0b0110, registerField, registerField, ⟨.immediate true, 6⟩]
  | .lea => [fixedField 4 0b1110, registerField, ⟨.label, 9⟩]
  | .st => [fixedField 4 0b0011, registerField, ⟨.label, 9⟩]
  | .sti => [fixedField 4 0b1011, registerField, ⟨.label, 9⟩]
  | .str => [fixedField 4 0b0111, registerField, registerField, ⟨.immediate true, 6⟩]
  | .trap => [fixedField 4 0b1111, fixedField 4 0, ⟨.immediate false, 8⟩]
  | .rti => [fixedField 4 0b1000, fixedField 12 0]

/-- Whether a field is a variable one: its kind is not Fixed (R54). -/
def Field.isVariable (f : Field) : Bool :=
  match f.kind with
  | .fixed _ => false
  | .register | .immediate _ | .label => true

/-- The display name of a field's kind (R51), used by assembler diagnostics only. -/
def Field.displayName (f : Field) : String :=
  match f.kind with
  | .fixed _ => "fixed"
  | .register => "reg"
  | .immediate _ => "imm"
  | .label => "label"

/-- `variable_arity`: how many fields are variable (R54). -/
def Variant.arity (v : Variant) : Nat :=
  v.fields.countP Field.isVariable

/-- The fields with the position of each one's lowest bit, the first field ending at bit `top - 1` (R55). -/
def placedFrom : Nat → List Field → List (Field × Nat)
  | _, [] => []
  | top, f :: fs => (f, top - f.width) :: placedFrom (top - f.width) fs

/-- A template's fields with their lowest bit positions: the leftmost field holds the highest bits (R55). -/
def Variant.placed (v : Variant) : List (Field × Nat) :=
  placedFrom 16 v.fields

/-- The bits the Fixed fields of a placed list cover, as a number (R62 `mask`). -/
def fixedMask (placed : List (Field × Nat)) : Nat :=
  (placed.map fun c => match c.1.kind with
    | .fixed _ => (2 ^ c.1.width - 1) * 2 ^ c.2
    | .register | .immediate _ | .label => 0).sum

/-- The Fixed constants of a placed list at their positions, as a number (R62 `match`). -/
def fixedMatch (placed : List (Field × Nat)) : Nat :=
  (placed.map fun c => match c.1.kind with
    | .fixed value => value * 2 ^ c.2
    | .register | .immediate _ | .label => 0).sum

/-- The `match` column of R62. -/
def Variant.matchBits : Variant → Word
  | .addReg => 0x1000#16
  | .addImm => 0x1020#16
  | .andReg => 0x5000#16
  | .andImm => 0x5020#16
  | .not => 0x903F#16
  | .br => 0x0000#16
  | .ret => 0xC1C0#16
  | .jmp => 0xC000#16
  | .jsr => 0x4800#16
  | .jsrr => 0x4000#16
  | .ld => 0x2000#16
  | .ldi => 0xA000#16
  | .ldr => 0x6000#16
  | .lea => 0xE000#16
  | .st => 0x3000#16
  | .sti => 0xB000#16
  | .str => 0x7000#16
  | .trap => 0xF000#16
  | .rti => 0x8000#16

/-- The `mask` column of R62. -/
def Variant.mask : Variant → Word
  | .addReg => 0xF038#16
  | .addImm => 0xF020#16
  | .andReg => 0xF038#16
  | .andImm => 0xF020#16
  | .not => 0xF03F#16
  | .br => 0xF000#16
  | .ret => 0xFFFF#16
  | .jmp => 0xFE3F#16
  | .jsr => 0xF800#16
  | .jsrr => 0xFE3F#16
  | .ld => 0xF000#16
  | .ldi => 0xF000#16
  | .ldr => 0xF000#16
  | .lea => 0xF000#16
  | .st => 0xF000#16
  | .sti => 0xF000#16
  | .str => 0xF000#16
  | .trap => 0xFF00#16
  | .rti => 0xFFFF#16

/-- The eighteen templates the source names, before and after BR's place (R60 rows 1 to 5 and 7 to 19). -/
def catalogBeforeBr : List Variant := [.addReg, .addImm, .andReg, .andImm, .not]

/-- See `catalogBeforeBr`. -/
def catalogAfterBr : List Variant :=
  [.ret, .jmp, .jsr, .jsrr, .ld, .ldi, .ldr, .lea, .st, .sti, .str, .trap, .rti]

/-- The catalog in declaration order, with or without the BR template (R5 `BR_PRESENT`, R60). -/
def catalogWith (brPresent : Bool) : List Variant :=
  catalogBeforeBr ++ (if brPresent then [.br] else []) ++ catalogAfterBr

/-- The catalog of this hardware (R60, decisions D1 to D3). -/
def catalog : List Variant := catalogWith Config.brPresent

/-- The position of a template in the catalog, 1 to 19 (R60 `#`). -/
def Variant.order : Variant → Nat
  | .addReg => 1
  | .addImm => 2
  | .andReg => 3
  | .andImm => 4
  | .not => 5
  | .br => 6
  | .ret => 7
  | .jmp => 8
  | .jsr => 9
  | .jsrr => 10
  | .ld => 11
  | .ldi => 12
  | .ldr => 13
  | .lea => 14
  | .st => 15
  | .sti => 16
  | .str => 17
  | .trap => 18
  | .rti => 19

/-- The register table: names to indices (R53), shared by the decoder and the assembler. -/
def registerTable : List (String × Reg) :=
  [("R0", 0), ("R1", 1), ("R2", 2), ("R3", 3), ("R4", 4), ("R5", 5), ("R6", 6), ("R7", 7)]

/-! ## The template selector -/

/-- The match predicate: all Fixed fields equal the word's bits (R91). -/
def Variant.matchesWord (v : Variant) (w : Word) : Bool :=
  w &&& v.mask == v.matchBits

/-- The first template of a catalog, in its order, that matches (R92). -/
def selectFrom (cat : List Variant) (w : Word) : Option Variant :=
  cat.find? fun v => v.matchesWord w

/-- The selector: the sequential scan of R90 over this hardware's catalog. -/
def selectTemplate (w : Word) : Option Variant :=
  selectFrom catalog w

/-- The selector's output `template_id`, 1 to 19 or none (R25, R93). -/
def templateId (w : Word) : Option Nat :=
  (selectTemplate w).map Variant.order

/-! ## The field extractor -/

/-- The register index held in the three bits from `lo` up (R57, R95). -/
def regAt (lo : Nat) (w : Word) : Reg :=
  ⟨(w.extractLsb' lo 3).toNat, (w.extractLsb' lo 3).isLt⟩

/-- The instance of a template for a word: every variable field's raw bits, at the positions of R95's table. -/
def extract (v : Variant) (w : Word) : Instr :=
  match v with
  | .addReg => .addReg (regAt 9 w) (regAt 6 w) (regAt 0 w)
  | .addImm => .addImm (regAt 9 w) (regAt 6 w) (w.extractLsb' 0 5)
  | .andReg => .andReg (regAt 9 w) (regAt 6 w) (regAt 0 w)
  | .andImm => .andImm (regAt 9 w) (regAt 6 w) (w.extractLsb' 0 5)
  | .not => .not (regAt 9 w) (regAt 6 w)
  | .br => .br (w.extractLsb' 9 3) (w.extractLsb' 0 9)
  | .ret => .ret
  | .jmp => .jmp (regAt 6 w)
  | .jsr => .jsr (w.extractLsb' 0 11)
  | .jsrr => .jsrr (regAt 6 w)
  | .ld => .ld (regAt 9 w) (w.extractLsb' 0 9)
  | .ldi => .ldi (regAt 9 w) (w.extractLsb' 0 9)
  | .ldr => .ldr (regAt 9 w) (regAt 6 w) (w.extractLsb' 0 6)
  | .lea => .lea (regAt 9 w) (w.extractLsb' 0 9)
  | .st => .st (regAt 9 w) (w.extractLsb' 0 9)
  | .sti => .sti (regAt 9 w) (w.extractLsb' 0 9)
  | .str => .str (regAt 9 w) (regAt 6 w) (w.extractLsb' 0 6)
  | .trap => .trap (w.extractLsb' 0 8)
  | .rti => .rti

/-- The raw values of a template's variable fields in a word, in declaration order, by the placement of R55:
the core's output "field values" (R25, R95), computed from the field list alone. -/
def extractFields (v : Variant) (w : Word) : List Nat :=
  (v.placed.filter fun c => c.1.isVariable).map fun c => w.toNat / 2 ^ c.2 % 2 ^ c.1.width

/-- The field values an instruction holds, in declaration order (R95). -/
def Instr.fieldValues : Instr → List Nat
  | .addReg dr sr1 sr2 => [dr.val, sr1.val, sr2.val]
  | .addImm dr sr1 imm5 => [dr.val, sr1.val, imm5.toNat]
  | .andReg dr sr1 sr2 => [dr.val, sr1.val, sr2.val]
  | .andImm dr sr1 imm5 => [dr.val, sr1.val, imm5.toNat]
  | .not dr sr => [dr.val, sr.val]
  | .br nzp off9 => [nzp.toNat, off9.toNat]
  | .ret => []
  | .jmp baseR => [baseR.val]
  | .jsr off11 => [off11.toNat]
  | .jsrr baseR => [baseR.val]
  | .ld dr off9 => [dr.val, off9.toNat]
  | .ldi dr off9 => [dr.val, off9.toNat]
  | .ldr dr baseR off6 => [dr.val, baseR.val, off6.toNat]
  | .lea dr off9 => [dr.val, off9.toNat]
  | .st sr off9 => [sr.val, off9.toNat]
  | .sti sr off9 => [sr.val, off9.toNat]
  | .str sr baseR off6 => [sr.val, baseR.val, off6.toNat]
  | .trap vect8 => [vect8.toNat]
  | .rti => []

/-! ## The decoder -/

/-- Why a word is not an instruction. The spec has one reason (R64, R96). -/
inductive Reject where
  /-- No template's Fixed fields all equal the word's bits: `IllegalOpcode` (R96, R201). -/
  | illegalOpcode
  deriving DecidableEq, Repr

/-- Select, then extract (R90). Total on every word; a function of the word alone (R93). -/
def decode (w : Word) : Except Reject Instr :=
  match selectTemplate w with
  | some v => .ok (extract v w)
  | none => .error .illegalOpcode

/-- The decoder on a word numbered as spec/opcode_table.json numbers it: one 16-bit word, the bits above `nbits` zero. -/
def decodeTableWord (nbits w : Nat) : Option Instr :=
  match decode (BitVec.ofNat 16 (w % 2 ^ nbits)) with
  | .ok i => some i
  | .error _ => none

/-! ## The same selector in the other forms R99 allows -/

/-- The decision tree on bits 15 to 12 (R61), RET tested before JMP (R99). -/
def selectByOpcode (w : Word) : Option Variant :=
  let rest (lo len : Nat) : Nat := (w.extractLsb' lo len).toNat
  match (w.extractLsb' 12 4).toNat with
  | 0x0 => some .br
  | 0x1 => if rest 5 1 = 1 then some .addImm else if rest 3 3 = 0 then some .addReg else none
  | 0x2 => some .ld
  | 0x3 => some .st
  | 0x4 => if rest 11 1 = 1 then some .jsr
           else if rest 9 3 = 0 ∧ rest 0 6 = 0 then some .jsrr else none
  | 0x5 => if rest 5 1 = 1 then some .andImm else if rest 3 3 = 0 then some .andReg else none
  | 0x6 => some .ldr
  | 0x7 => some .str
  | 0x8 => if rest 0 12 = 0 then some .rti else none
  | 0x9 => if rest 0 6 = 63 then some .not else none
  | 0xA => some .ldi
  | 0xB => some .sti
  | 0xC => if rest 9 3 = 0 ∧ rest 0 6 = 0 then (if rest 6 3 = 7 then some .ret else some .jmp) else none
  | 0xE => some .lea
  | 0xF => if rest 8 4 = 0 then some .trap else none
  | _ => none

/-- The parallel comparators of R99, one per template in catalog order. -/
def comparators (w : Word) : List Bool :=
  catalog.map fun v => v.matchesWord w

/-- The priority encoder of R99: the position, from `k` up, of the first comparator that is set. -/
def priorityEncodeFrom : Nat → List Bool → Option Nat
  | _, [] => none
  | k, b :: bs => if b then some k else priorityEncodeFrom (k + 1) bs

/-- Comparators feeding a priority encoder: the `template_id` (R99). -/
def templateIdParallel (w : Word) : Option Nat :=
  priorityEncodeFrom 1 (comparators w)

/-- The illegal words by their top four bits: the table of R64, read row by row. -/
def illegalByTable (w : Word) : Bool :=
  let bits (lo len : Nat) : Nat := (w.extractLsb' lo len).toNat
  match bits 12 4 with
  | 0x1 => bits 5 1 = 0 ∧ bits 3 2 ≠ 0
  | 0x4 => bits 11 1 = 0 ∧ (bits 9 2 ≠ 0 ∨ bits 0 6 ≠ 0)
  | 0x5 => bits 5 1 = 0 ∧ bits 3 2 ≠ 0
  | 0x8 => bits 0 12 ≠ 0
  | 0x9 => bits 0 6 ≠ 63
  | 0xC => bits 9 3 ≠ 0 ∨ bits 0 6 ≠ 0
  | 0xD => true
  | 0xF => bits 8 4 ≠ 0
  | _ => false

/-! ## The encoder -/

/-- The three bits of a register index. -/
def regBits (r : Reg) : BitVec 3 := BitVec.ofNat 3 r.val

/-- The word of an instruction: its fields, most significant first (R55, R60, R73). -/
def encode : Instr → Word
  | .addReg dr sr1 sr2 => 0b0001#4 ++ regBits dr ++ regBits sr1 ++ 0b000#3 ++ regBits sr2
  | .addImm dr sr1 imm5 => 0b0001#4 ++ regBits dr ++ regBits sr1 ++ 0b1#1 ++ imm5
  | .andReg dr sr1 sr2 => 0b0101#4 ++ regBits dr ++ regBits sr1 ++ 0b000#3 ++ regBits sr2
  | .andImm dr sr1 imm5 => 0b0101#4 ++ regBits dr ++ regBits sr1 ++ 0b1#1 ++ imm5
  | .not dr sr => 0b1001#4 ++ regBits dr ++ regBits sr ++ 0b111111#6
  | .br nzp off9 => 0b0000#4 ++ nzp ++ off9
  | .ret => 0b1100#4 ++ 0b000#3 ++ 0b111#3 ++ 0b000000#6
  | .jmp baseR => 0b1100#4 ++ 0b000#3 ++ regBits baseR ++ 0b000000#6
  | .jsr off11 => 0b0100#4 ++ 0b1#1 ++ off11
  | .jsrr baseR => 0b0100#4 ++ 0b0#1 ++ 0b00#2 ++ regBits baseR ++ 0b000000#6
  | .ld dr off9 => 0b0010#4 ++ regBits dr ++ off9
  | .ldi dr off9 => 0b1010#4 ++ regBits dr ++ off9
  | .ldr dr baseR off6 => 0b0110#4 ++ regBits dr ++ regBits baseR ++ off6
  | .lea dr off9 => 0b1110#4 ++ regBits dr ++ off9
  | .st sr off9 => 0b0011#4 ++ regBits sr ++ off9
  | .sti sr off9 => 0b1011#4 ++ regBits sr ++ off9
  | .str sr baseR off6 => 0b0111#4 ++ regBits sr ++ regBits baseR ++ off6
  | .trap vect8 => 0b1111#4 ++ 0b0000#4 ++ vect8
  | .rti => 0b1000#4 ++ 0b000000000000#12

/-- R73's second form of the same: `match` OR the sum of each variable field's value shifted to its lowest bit. -/
def placeFields (v : Variant) (values : List Nat) : Word :=
  v.matchBits ||| BitVec.ofNat 16
    ((List.zipWith (fun c x => x * 2 ^ c.2) (v.placed.filter fun c => c.1.isVariable) values).sum)

end Sys2Proof
end

