-- ==== Sys2Proof/Machine/Memory.lean ====
section
/-! DEFINITION. Memory as plain data (spec/20_memory.md R30 to R36): 2^16 words, each at a word address, held as a
list of (address, word) pairs in one canonical form, and its two primitives. -/

namespace Sys2Proof.Machine

/-- Memory: the locations that do not hold what an unlisted one reads as, by rising word address (log 1).
The addressable unit of this hardware is the 16-bit word (R31), so a cell holds a word. -/
abbrev Memory := List (Nat × Word)

/-- What a location with no entry reads as. DESIGN CHOICE (log 6), unsafe: R26 leaves `RESET_MEM` open. -/
def Memory.unlisted : Word := Config.unlisted

/-- The canonical form: addresses strictly rise and lie in the address space (R30), and no entry holds what an
unlisted location reads as. Equal memories are then equal lists. -/
abbrev Memory.wf (m : Memory) : Prop :=
  m.Pairwise (fun c d => c.1 < d.1) ∧ ∀ c ∈ m, c.1 < 2 ^ 16 ∧ c.2 ≠ Memory.unlisted

/-- The word at a numeric address: the first entry for it, or the unlisted value. -/
def Memory.lookup : Memory → Nat → Word
  | [], _ => Memory.unlisted
  | c :: m, a => if c.1 = a then c.2 else Memory.lookup m a

/-- The list without any entry for an address. -/
def Memory.erase : Memory → Nat → Memory
  | [], _ => []
  | c :: m, a => if c.1 = a then Memory.erase m a else c :: Memory.erase m a

/-- The list with an entry put before the first higher address. -/
def Memory.insert : Memory → Nat → Word → Memory
  | [], a, v => [(a, v)]
  | c :: m, a, v => if a < c.1 then (a, v) :: c :: m else c :: Memory.insert m a v

/-- `MemRead(addr, 1)` (R7, R32): the whole word at an address; nothing changes. -/
def Memory.read (m : Memory) (a : Word) : Word :=
  Memory.lookup m a.toNat

/-- `MemWrite(addr, 1, v)` (R7, R32): all 16 bits of one location. Storing what an unlisted location reads as
removes the entry, so the canonical form is kept. -/
def Memory.write (m : Memory) (a v : Word) : Memory :=
  if v = Memory.unlisted then Memory.erase m a.toNat
  else Memory.insert (Memory.erase m a.toNat) a.toNat v

/-- The host's load of an image before a run (R232, R241), word by word. -/
def Memory.load (m : Memory) : List (Word × Word) → Memory
  | [] => m
  | c :: image => Memory.load (Memory.write m c.1 c.2) image

end Sys2Proof.Machine
end

