-- ==== Sys2Proof/Machine/State.lean ====
section
/-! DEFINITION. The machine state (spec/10_state.md R10: the complete list), the reasons a step can stop
(spec/60_exceptions.md R200 to R206), and reset (R26, R231). -/

namespace Sys2Proof.Machine

/-- The three condition flags, written together, never singly (R18). -/
structure Flags where
  n : Bool
  z : Bool
  p : Bool
  deriving DecidableEq, Repr

/-- `MachineState` (R10): the eight general registers, the program counter, the flag trio, the privileged-mode
bit (R20; true is privileged) and memory. Nothing else is state (R22, R24). -/
structure State where
  regs  : Vector Word 8
  pc    : Word
  flags : Flags
  priv  : Bool
  mem   : Memory
  deriving DecidableEq, Repr

/-- The two faults of the core (R200, R205): a closed list. Both leave the state as it was at entry to the core,
the pc already advanced (R203), and both end the run (R204). -/
inductive Fault where
  /-- Raised by `invoke` when the decoder rejects the word (R96, R201). It records the word and the address it
  was fetched from. It is what the spec says the machine does, so safe. -/
  | illegalOpcode (word addr : Word)
  /-- Raised by RTI when PRIV = 0 (R187, R202). It records the address of the RTI. It is what the spec says the
  machine does, so safe. -/
  | privilegeViolation (addr : Word)
  deriving DecidableEq, Repr

/-- Why the model gives a word no meaning. No instruction of this hardware is refused. -/
inductive Refusal where
  /-- Raised by an arm of `exec` whose instruction has no meaning yet (none). Safe: it stops. -/
  | notModelled (mnemonic : String)
  deriving DecidableEq, Repr

/-- The reset parameters the spec leaves to the model as arguments (R5, R26, R231, decision D18). -/
structure ResetParams where
  regs  : Vector Word 8
  flags : Flags
  priv  : Bool
  pc    : Word
  mem   : Memory
  deriving DecidableEq, Repr

/-- The values the model names for them. DESIGN CHOICE (log 2 to 6), unsafe: R26 gives none. No image is loaded. -/
def ResetParams.chosen : ResetParams where
  regs  := Vector.replicate 8 Config.resetReg
  flags := ⟨Config.resetFlag, Config.resetFlag, Config.resetFlag⟩
  priv  := Config.resetPriv
  pc    := Config.resetPc
  mem   := []

/-- The machine right after reset with given parameters (R26, R231). -/
def State.resetWith (r : ResetParams) : State where
  regs  := r.regs
  pc    := r.pc
  flags := r.flags
  priv  := r.priv
  mem   := r.mem

/-- The machine right after reset, at the values the model names (log 2 to 6). -/
def State.reset : State := State.resetWith ResetParams.chosen

end Sys2Proof.Machine
end

