-- ==== Sys2Proof/Machine/Flags.lean ====
section
/-! DEFINITION. Every computation of the condition flags: `setcc` (spec/41_alu.md R110), the branch condition
(spec/42_control.md R130) and the flag-state word RTI pops (spec/10_state.md R21). -/

namespace Sys2Proof.Machine

/-- `setcc(v)` (R110): the flags from the sign of the 16-bit value written. -/
def setcc (v : Word) : Flags where
  n := v.getLsbD 15
  z := v == 0x0000#16
  p := !v.getLsbD 15 && v != 0x0000#16

/-- Whether BR branches (R130): bit 2 of the mask selects N, bit 1 Z, bit 0 P. Defined for all flag combinations. -/
def branchTaken (nzp : BitVec 3) (f : Flags) : Bool :=
  (nzp.getLsbD 2 && f.n) || (nzp.getLsbD 1 && f.z) || (nzp.getLsbD 0 && f.p)

/-- The mode a flag-state word holds (R21): PRIV is NOT bit 15. -/
def privOfFlagWord (w : Word) : Bool := !w.getLsbD 15

/-- The flags a flag-state word holds (R21): bits 2, 1, 0, verbatim; bits 14 to 3 are ignored. -/
def flagsOfFlagWord (w : Word) : Flags where
  n := w.getLsbD 2
  z := w.getLsbD 1
  p := w.getLsbD 0

end Sys2Proof.Machine
end

