-- ==== Sys2Proof/Machine/Ops.lean ====
section
/-! DEFINITION. The named operations over registers, memory, pc, flags and mode that every meaning is written in,
and the three ways control leaves the ordinary path: `raise` (spec/60_exceptions.md R206), the entry to a handler
(R209) and the return from an interrupt frame (spec/45_system.md R187). -/

namespace Sys2Proof.Machine

/-! ## Reading -/

/-- `x[i]` (R7). Every register is ordinary: none is hard-wired (R11). -/
def State.reg (s : State) (r : Reg) : Word := s.regs[r]

/-- `MemRead(addr, 1)` on the state's memory (R7, R32). No address is refused and PRIV is not checked (R38). -/
def State.read (s : State) (a : Word) : Word := Memory.read s.mem a

/-! ## Writing -/

/-- `x[i] <- v` (R7). -/
def State.setReg (s : State) (r : Reg) (v : Word) : State := { s with regs := s.regs.set r v }

/-- `pc <- target` (R7). -/
def State.setPc (s : State) (target : Word) : State := { s with pc := target }

/-- The three flags, together (R18). -/
def State.setFlags (s : State) (f : Flags) : State := { s with flags := f }

/-- The privileged-mode bit (R20). -/
def State.setPriv (s : State) (b : Bool) : State := { s with priv := b }

/-- `MemWrite(addr, 1, v)` on the state's memory (R7, R32). -/
def State.write (s : State) (a v : Word) : State := { s with mem := Memory.write s.mem a v }

/-- A result: the destination register and the flags from the value written (R110, R19). -/
def State.setResult (s : State) (dr : Reg) (v : Word) : State := (s.setReg dr v).setFlags (setcc v)

/-- A jump that links: R7 receives the pc of the state at entry, which is the return address (R12, R133, R135 d).
The target is a value already read from the entry state (R8). -/
def State.jumpLinking (s : State) (target : Word) : State := (s.setReg 7 s.pc).setPc target

/-! ## Faults, handler entry and return -/

/-- `raise F(info)` (R206): the invocation ends with the fault, the state as at entry. -/
def raise (f : Fault) : Host.Outcome State Fault Refusal := .fault f

/-- The address of the instruction being executed: pc - 1 modulo 2^16, what a fault records (R201, R202). -/
def State.instrAddr (s : State) : Word := s.pc - 1#16

/-- The entry to a handler (R209), the only one there is: R7 saves the advanced pc, the pc goes to the address the
caller read from the vector table; PRIV, the flags, R6 and memory stay (R186). -/
def State.enterHandler (s : State) (handler : Word) : State := s.jumpLinking handler

/-- The return through a frame on the stack R6 points to (R187, R188): saved PC at R6, flag-state word at R6 + 1,
R6 advanced by 2, all sums modulo 2^16; no stack switch (R189). All reads are of the entry state. -/
def State.returnFromFrame (s : State) : State :=
  let sp := s.reg 6
  let savedPc := s.read sp
  let w := s.read (sp + 1#16)
  (((s.setReg 6 (sp + 2#16)).setPc savedPc).setPriv (privOfFlagWord w)).setFlags (flagsOfFlagWord w)

/-! ## The caller's fetch -/

/-- The word the caller fetches: `MemRead(pc, 1)` (R16), from the same memory stores go to (R40). -/
def State.fetchWord (s : State) : Word := s.read s.pc

/-- The caller's advance of the pc, modulo 2^16 (R15, R16, R17). -/
def State.advance (s : State) : State := s.setPc (s.pc + 1#16)

end Sys2Proof.Machine
end

