-- ==== Sys2Proof/Machine/Operands.lean ====
section
/-! DEFINITION. Every operand form: sign and zero extension (spec/00_scope.md R7, spec/30_encoding.md R57) and the
addressing modes of the core (spec/43_load.md R154, the complete list). Sums are modulo 2^16 (spec/20_memory.md R43). -/

namespace Sys2Proof.Machine

/-- `sext_N(v)` (R7): two's-complement extension of an N-bit field to 16 bits. -/
def sext {n : Nat} (v : BitVec n) : Word := v.signExtend 16

/-- `zext_N(v)` (R7): the high bits are zero. -/
def zext {n : Nat} (v : BitVec n) : Word := v.setWidth 16

/-- PC-relative (R154 a): the advanced pc plus the signed offset. Used with 9-bit and 11-bit offsets. -/
def State.pcRelative (s : State) {n : Nat} (off : BitVec n) : Word := s.pc + sext off

/-- Indirect (R154 b): the pointer held at the PC-relative address. -/
def State.indirect (s : State) (off9 : BitVec 9) : Word := s.read (s.pcRelative off9)

/-- Base plus offset (R154 c): the base register is not modified. -/
def State.baseOffset (s : State) (baseR : Reg) (off6 : BitVec 6) : Word := s.reg baseR + sext off6

/-- The address of a trap vector's table entry (R37, R185): the vector is zero-extended. -/
def trapEntryAddr (vect8 : BitVec 8) : Word := Config.trapTableBase + zext vect8

end Sys2Proof.Machine
end

