-- ==== Sys2Proof/Machine/Alu.lean ====
section
/-! DEFINITION. The register ALU family (spec/41_alu.md R111 to R116): ADD, AND, NOT. -/

namespace Sys2Proof.Machine

/-- ADD, register form (R111). -/
def execAddReg (dr sr1 sr2 : Reg) (s : State) : Host.Outcome State Fault Refusal :=
  .next (s.setResult dr (s.reg sr1 + s.reg sr2))

/-- ADD, immediate form (R112). -/
def execAddImm (dr sr1 : Reg) (imm5 : BitVec 5) (s : State) : Host.Outcome State Fault Refusal :=
  .next (s.setResult dr (s.reg sr1 + sext imm5))

/-- AND, register form (R113). -/
def execAndReg (dr sr1 sr2 : Reg) (s : State) : Host.Outcome State Fault Refusal :=
  .next (s.setResult dr (s.reg sr1 &&& s.reg sr2))

/-- AND, immediate form (R114): the immediate is extended before the AND. -/
def execAndImm (dr sr1 : Reg) (imm5 : BitVec 5) (s : State) : Host.Outcome State Fault Refusal :=
  .next (s.setResult dr (s.reg sr1 &&& sext imm5))

/-- NOT (R115): bitwise complement. -/
def execNot (dr sr : Reg) (s : State) : Host.Outcome State Fault Refusal :=
  .next (s.setResult dr (~~~ s.reg sr))

end Sys2Proof.Machine
end

