-- ==== Sys2Proof/Machine/Control.lean ====
section
/-! DEFINITION. The control-transfer family (spec/42_control.md R130 to R135): BR, RET, JMP, JSR, JSRR. None of them
accesses memory or writes the flags; there is no delay slot (R135 b). -/

namespace Sys2Proof.Machine

/-- BR (R130): not taken, the pc keeps its advanced value. -/
def execBr (nzp : BitVec 3) (off9 : BitVec 9) (s : State) : Host.Outcome State Fault Refusal :=
  .next (if branchTaken nzp s.flags then s.setPc (s.pcRelative off9) else s)

/-- RET (R131): through R7, which stays. -/
def execRet (s : State) : Host.Outcome State Fault Refusal :=
  .next (s.setPc (s.reg 7))

/-- JMP (R132): no link. With BaseR = 7 the effect is RET's. -/
def execJmp (baseR : Reg) (s : State) : Host.Outcome State Fault Refusal :=
  .next (s.setPc (s.reg baseR))

/-- JSR (R133). -/
def execJsr (off11 : BitVec 11) (s : State) : Host.Outcome State Fault Refusal :=
  .next (s.jumpLinking (s.pcRelative off11))

/-- JSRR (R134): the target is read from the entry state, before R7 is written (R8, decision D9, log 8). -/
def execJsrr (baseR : Reg) (s : State) : Host.Outcome State Fault Refusal :=
  .next (s.jumpLinking (s.reg baseR))

end Sys2Proof.Machine
end

