-- ==== Sys2Proof/Machine/Load.lean ====
section
/-! DEFINITION. The load family and LEA (spec/43_load.md R150 to R154). All four set the flags from the value written. -/

namespace Sys2Proof.Machine

/-- LD (R150). -/
def execLd (dr : Reg) (off9 : BitVec 9) (s : State) : Host.Outcome State Fault Refusal :=
  .next (s.setResult dr (s.read (s.pcRelative off9)))

/-- LDI (R151): one level of indirection, two reads. -/
def execLdi (dr : Reg) (off9 : BitVec 9) (s : State) : Host.Outcome State Fault Refusal :=
  .next (s.setResult dr (s.read (s.indirect off9)))

/-- LDR (R152). -/
def execLdr (dr baseR : Reg) (off6 : BitVec 6) (s : State) : Host.Outcome State Fault Refusal :=
  .next (s.setResult dr (s.read (s.baseOffset baseR off6)))

/-- LEA (R153): the address itself, no access; it sets the flags. -/
def execLea (dr : Reg) (off9 : BitVec 9) (s : State) : Host.Outcome State Fault Refusal :=
  .next (s.setResult dr (s.pcRelative off9))

end Sys2Proof.Machine
end

