-- ==== Sys2Proof/Machine/Store.lean ====
section
/-! DEFINITION. The store family (spec/44_store.md R170 to R173). No store writes a register, the flags or the pc. -/

namespace Sys2Proof.Machine

/-- ST (R170). -/
def execSt (sr : Reg) (off9 : BitVec 9) (s : State) : Host.Outcome State Fault Refusal :=
  .next (s.write (s.pcRelative off9) (s.reg sr))

/-- STI (R171): reads the pointer, then writes through it. -/
def execSti (sr : Reg) (off9 : BitVec 9) (s : State) : Host.Outcome State Fault Refusal :=
  .next (s.write (s.indirect off9) (s.reg sr))

/-- STR (R172): the base register is not modified. -/
def execStr (sr baseR : Reg) (off6 : BitVec 6) (s : State) : Host.Outcome State Fault Refusal :=
  .next (s.write (s.baseOffset baseR off6) (s.reg sr))

end Sys2Proof.Machine
end

