-- ==== Sys2Proof/Machine/System.lean ====
section
/-! DEFINITION. The system family (spec/45_system.md R185 to R190): TRAP and RTI. -/

namespace Sys2Proof.Machine

/-- TRAP (R185): enters the handler whose address the table holds when the TRAP executes; nothing else (R186). -/
def execTrap (vect8 : BitVec 8) (s : State) : Host.Outcome State Fault Refusal :=
  .next (s.enterHandler (s.read (trapEntryAddr vect8)))

/-- RTI (R187): in privileged mode the return through the frame at R6; otherwise the fault, before any access. -/
def execRti (s : State) : Host.Outcome State Fault Refusal :=
  if s.priv then .next s.returnFromFrame else raise (.privilegeViolation s.instrAddr)

end Sys2Proof.Machine
end

