-- ==== Sys2Proof/Machine/Dispatch.lean ====
section
/-! DEFINITION. The execute engine's dispatch (spec/40_decoder.md R97): one arm per template. -/

namespace Sys2Proof.Machine

def exec (i : Instr) (s : State) : Host.Outcome State Fault Refusal :=
  match i with
  | .addReg dr sr1 sr2 => Sys2Proof.Machine.execAddReg dr sr1 sr2 s
  | .addImm dr sr1 imm5 => Sys2Proof.Machine.execAddImm dr sr1 imm5 s
  | .andReg dr sr1 sr2 => Sys2Proof.Machine.execAndReg dr sr1 sr2 s
  | .andImm dr sr1 imm5 => Sys2Proof.Machine.execAndImm dr sr1 imm5 s
  | .not dr sr => Sys2Proof.Machine.execNot dr sr s
  | .br nzp off9 => Sys2Proof.Machine.execBr nzp off9 s
  | .ret => Sys2Proof.Machine.execRet s
  | .jmp baseR => Sys2Proof.Machine.execJmp baseR s
  | .jsr off11 => Sys2Proof.Machine.execJsr off11 s
  | .jsrr baseR => Sys2Proof.Machine.execJsrr baseR s
  | .ld dr off9 => Sys2Proof.Machine.execLd dr off9 s
  | .ldi dr off9 => Sys2Proof.Machine.execLdi dr off9 s
  | .ldr dr baseR off6 => Sys2Proof.Machine.execLdr dr baseR off6 s
  | .lea dr off9 => Sys2Proof.Machine.execLea dr off9 s
  | .st sr off9 => Sys2Proof.Machine.execSt sr off9 s
  | .sti sr off9 => Sys2Proof.Machine.execSti sr off9 s
  | .str sr baseR off6 => Sys2Proof.Machine.execStr sr baseR off6 s
  | .trap vect8 => Sys2Proof.Machine.execTrap vect8 s
  | .rti => Sys2Proof.Machine.execRti s

end Sys2Proof.Machine
end

