-- ==== Sys2Proof/Machine/Invoke.lean ====
section
/-! DEFINITION. One invocation of the core (spec/40_decoder.md R90; spec/00_scope.md R9): a word and the state at
entry, the pc already advanced, to an outcome. -/

namespace Sys2Proof.Machine

/-- Select, clone, extract, execute (R90). A word no template matches is `IllegalOpcode`, whatever the mode
(R96, R201, R208), with the word and the address it was fetched from. -/
def invoke (bits : Word) (s : State) : Host.Outcome State Fault Refusal :=
  match decode bits with
  | .ok i => exec i s
  | .error .illegalOpcode => raise (.illegalOpcode bits s.instrAddr)

end Sys2Proof.Machine
end

