-- ==== Sys2Proof/Machine/Step.lean ====
section
/-! DEFINITION. One step of the simulation loop (spec/10_state.md R16): fetch, advance, invoke; and how an instruction
is placed where the next step fetches it. -/

namespace Sys2Proof.Machine

/-- Fetch at pc, advance pc, invoke the core (R16). -/
def step (s : State) : Host.Outcome State Fault Refusal :=
  invoke s.fetchWord s.advance

/-- The state with a word, numbered as spec/opcode_table.json numbers it, stored where `step` fetches next. It stands
for the host's load of a program (log 7): every instruction is one word (R50). -/
def State.withFetchWord (s : State) (nbits w : Nat) : State :=
  s.write s.pc (BitVec.ofNat 16 (w % 2 ^ nbits))

end Sys2Proof.Machine
end

