-- ==== Sys2Proof/Machine/Assembler.lean ====
section
/-! DEFINITION. The assembler's encode function (spec/30_encoding.md R70 to R77), the inverse of the decoder over the
same catalog. It is outside the hardware (R4): no step of the machine uses it, and its diagnostics are no faults.
Token splitting, the symbol table's construction, the sink and the format of messages are left to their owners (R4, R70). -/

namespace Sys2Proof.Machine

/-- The `kind` of an encode-time diagnostic: the complete list of R74. A range error reports the legal range (R72). -/
inductive DiagnosticKind where
  | unknownMnemonic
  | arityMismatch
  | operandTypeMismatch
  | unknownRegister
  | immediateOutOfRange (lo hi : Int)
  | undefinedLabel
  | labelOutOfRange (lo hi : Int)
  deriving DecidableEq, Repr

/-- A token as the tokenizer hands it over (R70): its text and where it stands in the source. The spec names the two
positions and gives them no type; they are counts here (log 10), and only messages may use them. -/
structure Token where
  text       : String
  sourceLine : Nat
  column     : Nat
  deriving DecidableEq, Repr

/-- What the encoder is given (R70, R72): the open literal syntax `parse_literal` (decision D22, log 9), the finished
`label_table`, and the address of the instruction being encoded. -/
structure AsmContext where
  parseLiteral : String → Option Int
  labelTable   : String → Option Word
  address      : Word

/-- The legal range of a field of a given width (R52, R72). -/
def legalRange (signed : Bool) (width : Nat) : Int × Int :=
  if signed then (-(2 ^ (width - 1) : Int), 2 ^ (width - 1) - 1) else (0, 2 ^ width - 1)

/-- The field's bits of an integer: its value modulo 2^width, two's complement for a negative one (R72). -/
def fieldBits (width : Nat) (x : Int) : Nat := (x % (2 ^ width : Int)).toNat

/-- The bits of an integer if it is in range, else the diagnostic. -/
def encodeInRange (signed : Bool) (width : Nat) (tooFar : Int → Int → DiagnosticKind) (x : Int) :
    Except DiagnosticKind Nat :=
  let range := legalRange signed width
  if range.1 ≤ x ∧ x ≤ range.2 then .ok (fieldBits width x) else .error (tooFar range.1 range.2)

/-- The offset a label stands for: `target_address - (instruction_address + 1)`, taken on integers (R72, U11). -/
def labelOffset (address target : Word) : Int := (target.toNat : Int) - ((address.toNat : Int) + 1)

/-- `encode_field` (R72). For a token that is no register name where a register is expected the two kinds of
diagnostic are told apart by the reading of C7 (log 10). -/
def encodeField (ctx : AsmContext) (f : Field) (token : Token) : Except DiagnosticKind Nat :=
  match f.kind with
  | .fixed value => .ok value
  | .register =>
    match registerTable.lookup token.text with
    | some r => .ok r.val
    | none =>
      if (ctx.parseLiteral token.text).isSome || (ctx.labelTable token.text).isSome then .error .operandTypeMismatch
      else .error .unknownRegister
  | .immediate signed =>
    match ctx.parseLiteral token.text with
    | some x => encodeInRange signed f.width .immediateOutOfRange x
    | none => .error .operandTypeMismatch
  | .label =>
    match ctx.labelTable token.text with
    | some target => encodeInRange true f.width .labelOutOfRange (labelOffset ctx.address target)
    | none => .error .undefinedLabel

/-- Each operand token encoded for its variable field, in declaration order; the first failure is reported (R73). -/
def encodeOperands (ctx : AsmContext) : List Field → List Token → Except DiagnosticKind (List Nat)
  | [], _ => .ok []
  | _ :: _, [] => .error .arityMismatch
  | f :: fs, token :: tokens =>
    match encodeField ctx f token with
    | .error d => .error d
    | .ok x =>
      match encodeOperands ctx fs tokens with
      | .error d => .error d
      | .ok xs => .ok (x :: xs)

/-- One template's word from operand tokens (R73): Fixed fields consume no token. -/
def encodeTemplate (ctx : AsmContext) (v : Variant) (tokens : List Token) : Except DiagnosticKind Word :=
  match encodeOperands ctx (v.fields.filter Field.isVariable) tokens with
  | .error d => .error d
  | .ok values => .ok (placeFields v values)

/-- Whether a failure is a range reason (R71 step 3). -/
def DiagnosticKind.isRange : DiagnosticKind → Bool
  | .immediateOutOfRange _ _ | .labelOutOfRange _ _ => true
  | .unknownMnemonic | .arityMismatch | .operandTypeMismatch | .unknownRegister | .undefinedLabel => false

/-- Which of two failures a line reports: a type mismatch before any other, then anything before a range reason,
then the earlier one (R71 step 3, C9, log 10). -/
def moreSpecific (d e : DiagnosticKind) : DiagnosticKind :=
  if d = .operandTypeMismatch then d
  else if e = .operandTypeMismatch then e
  else if d.isRange && !e.isRange then e else d

/-- The candidates tried in order: the first that encodes, else the most specific failure so far (R71 step 3). -/
def tryCandidates (ctx : AsmContext) (tokens : List Token) :
    List Variant → DiagnosticKind → Except DiagnosticKind (Variant × Word)
  | [], worst => .error worst
  | v :: vs, worst =>
    match encodeTemplate ctx v tokens with
    | .ok w => .ok (v, w)
    | .error d => tryCandidates ctx tokens vs (moreSpecific worst d)

/-- One line: candidates by mnemonic, then by arity, then the first that encodes (R71). The result is the selected
template and the word. -/
def assembleLine (ctx : AsmContext) (mnemonic : Token) (tokens : List Token) :
    Except DiagnosticKind (Variant × Word) :=
  match catalog.filter (fun v => v.mnemonic == mnemonic.text) with
  | [] => .error .unknownMnemonic
  | named =>
    match named.filter (fun v => v.arity == tokens.length) with
    | [] => .error .arityMismatch
    | v :: vs =>
      match encodeTemplate ctx v tokens with
      | .ok w => .ok (v, w)
      | .error d => tryCandidates ctx tokens vs d

/-- The customary branch spellings an assembler front end may expand, each with its mask (R76). They are no part of
the catalog. -/
def brAliases : List (String × Nat) :=
  [("brn", 4), ("brz", 2), ("brp", 1), ("brnz", 6), ("brnp", 5), ("brzp", 3), ("brnzp", 7), ("br", 7)]

/-- A line whose mnemonic may be one of R76's one-token branch spellings; any other line as it stands. -/
def assembleWithAliases (ctx : AsmContext) (mnemonic : Token) (tokens : List Token) :
    Except DiagnosticKind (Variant × Word) :=
  match tokens, brAliases.lookup mnemonic.text with
  | [label], some mask =>
    match encodeField ctx ⟨.label, 9⟩ label with
    | .ok off => .ok (.br, placeFields .br [mask, off])
    | .error d => .error d
  | _, _ => assembleLine ctx mnemonic tokens

/-- The `severity` of a diagnostic (R74). DESIGN CHOICE (log 10): the spec names the field and lists no values for it;
it says of every encode-time failure that it is fatal for its line and for no other (R73, R74). -/
inductive Severity where
  | fatalForLine
  deriving DecidableEq, Repr

/-- The record handed to the sink for a bad line: the five fields of R74. -/
structure Diagnostic where
  severity : Severity
  kind     : DiagnosticKind
  filename : String
  lineText : String
  message  : String
  deriving DecidableEq, Repr

/-- One source line: its text, the mnemonic token and the operand tokens the tokenizer split it into (R70), and the
address the symbol-table builder gave it. -/
structure Line where
  text     : String
  address  : Word
  mnemonic : Token
  tokens   : List Token
  deriving DecidableEq, Repr

/-- What is common to the lines of one source file: its name, the open parameters of the encoder, and the format of
messages, which R4 leaves to its owner (log 9). -/
structure SourceFile where
  filename      : String
  parseLiteral  : String → Option Int
  labelTable    : String → Option Word
  formatMessage : DiagnosticKind → Line → String

/-- What the encoder is given for a line of the file. -/
def SourceFile.context (file : SourceFile) (l : Line) : AsmContext where
  parseLiteral := file.parseLiteral
  labelTable   := file.labelTable
  address      := l.address

/-- The diagnostic record of a failure of a line (R74). -/
def SourceFile.diagnostic (file : SourceFile) (l : Line) (kind : DiagnosticKind) : Diagnostic where
  severity := .fatalForLine
  kind     := kind
  filename := file.filename
  lineText := l.text
  message  := file.formatMessage kind l

/-- A line of the file: its template and word, or its one diagnostic record (R71, R74). -/
def SourceFile.assemble (file : SourceFile) (l : Line) : Except Diagnostic (Variant × Word) :=
  (assembleLine (file.context l) l.mnemonic l.tokens).mapError (file.diagnostic l)

/-- All lines: a bad line gives one diagnostic and the next is still processed (R74, U13). -/
def assembleLines (file : SourceFile) (lines : List Line) : List (Except Diagnostic (Variant × Word)) :=
  lines.map file.assemble

/-- The record of a line's result, if it failed. -/
def diagnosticOf : Except Diagnostic (Variant × Word) → Option Diagnostic
  | .ok _ => none
  | .error d => some d

/-- The records handed to the sink, in line order (R74). -/
def diagnostics (file : SourceFile) (lines : List Line) : List Diagnostic :=
  (assembleLines file lines).filterMap diagnosticOf

end Sys2Proof.Machine
end

