-- ==== Sys2Proof/Machine/Access.lean ====
section
/-! DEFINITION. The tables the spec gives about whole instructions: the memory accesses in order (spec/20_memory.md
R33), the registers read and written (spec/10_state.md R13), and the variants that write the flags (R19) and the
pc (R17). They are written from those tables, beside the meanings, so that the two can be held against each other. -/

namespace Sys2Proof.Machine

/-- One memory access: the address and the word moved. -/
inductive Access where
  | read (addr value : Word)
  | write (addr value : Word)
  deriving DecidableEq, Repr

/-- The read of an address in a state, as an access. -/
def State.readAccess (s : State) (a : Word) : Access := .read a (s.read a)

/-- The data accesses of an instruction, in the order the core makes them (R33). `s` is the state at entry. -/
def accesses (i : Instr) (s : State) : List Access :=
  match i with
  | .ld _ off9 => [s.readAccess (s.pcRelative off9)]
  | .ldi _ off9 => [s.readAccess (s.pcRelative off9), s.readAccess (s.indirect off9)]
  | .ldr _ baseR off6 => [s.readAccess (s.baseOffset baseR off6)]
  | .st sr off9 => [.write (s.pcRelative off9) (s.reg sr)]
  | .sti sr off9 => [s.readAccess (s.pcRelative off9), .write (s.indirect off9) (s.reg sr)]
  | .str sr baseR off6 => [.write (s.baseOffset baseR off6) (s.reg sr)]
  | .trap vect8 => [s.readAccess (trapEntryAddr vect8)]
  | .rti => if s.priv then [s.readAccess (s.reg 6), s.readAccess (s.reg 6 + 1#16)] else []
  | .addReg _ _ _ | .addImm _ _ _ | .andReg _ _ _ | .andImm _ _ _ | .not _ _ => []
  | .br _ _ | .ret | .jmp _ | .jsr _ | .jsrr _ | .lea _ _ => []

/-- All accesses of one step: the caller's fetch, then the data accesses (R33). -/
def stepAccesses (i : Instr) (s : State) : List Access :=
  s.readAccess s.pc :: accesses i s.advance

/-- Memory after a list of accesses, in order. -/
def Memory.after (m : Memory) : List Access → Memory
  | [] => m
  | .read _ _ :: rest => Memory.after m rest
  | .write a v :: rest => Memory.after (Memory.write m a v) rest

/-- The registers an instruction reads (R13, middle column). -/
def regsRead : Instr → List Reg
  | .addReg _ sr1 sr2 => [sr1, sr2]
  | .addImm _ sr1 _ => [sr1]
  | .andReg _ sr1 sr2 => [sr1, sr2]
  | .andImm _ sr1 _ => [sr1]
  | .not _ sr => [sr]
  | .br _ _ => []
  | .ret => [7]
  | .jmp baseR => [baseR]
  | .jsr _ => []
  | .jsrr baseR => [baseR]
  | .ld _ _ => []
  | .ldi _ _ => []
  | .ldr _ baseR _ => [baseR]
  | .lea _ _ => []
  | .st sr _ => [sr]
  | .sti sr _ => [sr]
  | .str sr baseR _ => [sr, baseR]
  | .trap _ => []
  | .rti => [6]

/-- The register an instruction writes (R13, right column). -/
def regWritten : Instr → Option Reg
  | .addReg dr _ _ => some dr
  | .addImm dr _ _ => some dr
  | .andReg dr _ _ => some dr
  | .andImm dr _ _ => some dr
  | .not dr _ => some dr
  | .br _ _ => none
  | .ret => none
  | .jmp _ => none
  | .jsr _ => some 7
  | .jsrr _ => some 7
  | .ld dr _ => some dr
  | .ldi dr _ => some dr
  | .ldr dr _ _ => some dr
  | .lea dr _ => some dr
  | .st _ _ => none
  | .sti _ _ => none
  | .str _ _ _ => none
  | .trap _ => some 7
  | .rti => some 6

/-- Whether a variant writes the flags (R19): the `setcc` group, and RTI from the frame. -/
def writesFlags : Variant → Bool
  | .addReg | .addImm | .andReg | .andImm | .not | .ld | .ldi | .ldr | .lea | .rti => true
  | .br | .ret | .jmp | .jsr | .jsrr | .st | .sti | .str | .trap => false

/-- Whether a variant may write the pc (R17). -/
def writesPc : Variant → Bool
  | .br | .ret | .jmp | .jsr | .jsrr | .trap | .rti => true
  | .addReg | .addImm | .andReg | .andImm | .not | .ld | .ldi | .ldr | .lea | .st | .sti | .str => false

end Sys2Proof.Machine
end

