-- ==== Sys2Proof/Machine/Run.lean ====
section
/-! DEFINITION. A run of the simulation loop (spec/70_reset_and_hazards.md R234; spec/60_exceptions.md R203, R204): it
ends normally where the caller's predicate holds before a fetch, abnormally at the first fault. -/

namespace Sys2Proof.Machine

/-- How a run stands after some steps. -/
inductive RunEnd where
  /-- `END_OF_RUN` held before a fetch: the normal end (R234 b). -/
  | ended (s : State)
  /-- A fault, and the state it leaves: the state at entry to the core, the pc advanced (R203, R204, R234 a). -/
  | faulted (f : Fault) (s : State)
  /-- The model gave an instruction no meaning (none does). -/
  | refused (r : Refusal) (s : State)
  /-- The steps allowed are used up and nothing has ended the run. -/
  | running (s : State)
  deriving DecidableEq, Repr

/-- At most `k` steps from `s`. `endOfRun` is the open parameter `END_OF_RUN` (decision D19, log 9); the caller
tests it before each fetch, and no instruction ends a run by itself (R234). -/
def runUntil (endOfRun : State → Bool) : Nat → State → RunEnd
  | 0, s => if endOfRun s then .ended s else .running s
  | k + 1, s =>
    if endOfRun s then .ended s
    else match step s with
      | .next t => runUntil endOfRun k t
      | .fault f => .faulted f s.advance
      | .refused r => .refused r s.advance

end Sys2Proof.Machine
end

