-- ==== Sys2Proof/Safety.lean ====
section
/-! DEFINITION. The terms claims are stated in: frames, the sign reading of the flags, the invariants, and what a
fault-free run is. -/

namespace Sys2Proof.Machine

/-- A word plus an integer, modulo 2^16 (R43): the sum taken exactly, then wrapped. -/
def wrapSum (a : Word) (x : Int) : Word := BitVec.ofInt 16 ((a.toNat : Int) + x)

/-- Every location of memory reads as before. -/
def SameMemory (s t : State) : Prop := ∀ a, t.read a = s.read a

/-- Location `a` holds `v` and every other one reads as before (R32 `MemWrite`). -/
def StoredAt (a v : Word) (s t : State) : Prop :=
  t.read a = v ∧ ∀ b, b ≠ a → t.read b = s.read b

/-- Every register but `r` reads as before. -/
def SameRegsExcept (r : Reg) (s t : State) : Prop := ∀ q, q ≠ r → t.reg q = s.reg q

/-- Every register reads as before. -/
def SameRegs (s t : State) : Prop := ∀ q, t.reg q = s.reg q

/-- The flags tell the sign of `v` read as a signed number (R110). -/
def FlagsTellSign (v : Word) (f : Flags) : Prop :=
  (f.n = true ↔ v.toInt < 0) ∧ (f.z = true ↔ v.toInt = 0) ∧ (f.p = true ↔ 0 < v.toInt)

/-- An instruction's whole effect is a result: `dr` holds `v`, the flags tell its sign, and the other registers, the
pc, the mode and all of memory are as before. -/
def OnlyResult (dr : Reg) (v : Word) (s t : State) : Prop :=
  t.reg dr = v ∧ FlagsTellSign v t.flags ∧ SameRegsExcept dr s t ∧ t.pc = s.pc ∧ t.priv = s.priv ∧ SameMemory s t

/-- An instruction's whole effect is a jump: the pc is `target`, everything else as before. -/
def OnlyJump (target : Word) (s t : State) : Prop :=
  t.pc = target ∧ SameRegs s t ∧ t.flags = s.flags ∧ t.priv = s.priv ∧ SameMemory s t

/-- An instruction's whole effect is a jump that links: R7 holds the entry pc and the pc is `target`. -/
def OnlyLinkedJump (target : Word) (s t : State) : Prop :=
  t.reg 7 = s.pc ∧ t.pc = target ∧ SameRegsExcept 7 s t ∧ t.flags = s.flags ∧ t.priv = s.priv ∧ SameMemory s t

/-- An instruction's whole effect is a store of `v` at `a`. -/
def OnlyStore (a v : Word) (s t : State) : Prop :=
  StoredAt a v s t ∧ SameRegs s t ∧ t.flags = s.flags ∧ t.pc = s.pc ∧ t.priv = s.priv

/-- Exactly one of N, Z, P is set (R27). -/
def Flags.oneHot (f : Flags) : Bool :=
  (f.n && !f.z && !f.p) || (!f.n && f.z && !f.p) || (!f.n && !f.z && f.p)

/-- The invariant of the model: memory is in its canonical form. -/
abbrev State.Inv (s : State) : Prop := s.mem.wf

/-- The states of unprivileged code whose flags come from `setcc` (R27, R211). -/
abbrev State.UserInv (s : State) : Prop := s.priv = false ∧ s.flags.oneHot = true ∧ s.mem.wf

/-- A run of `k` steps from `s` without a fault: what every claim about a program carries (R204). -/
def FaultFree (k : Nat) (s : State) : Prop := ∃ t, Host.Core.run Sys2Proof.core k s = .next t

end Sys2Proof.Machine
end

