-- ==== Sys2Proof/Certificates/Slice0/Obligations.lean ====
section
/-! DEFINITION. The statements for the provers. Each is about the machine, over every state and every operand unless
its hypotheses say otherwise; each docstring names the rule of spec/ it formalises, and says where the spec marks the
rule as its own decision or derivation. The bit layouts in the decode clauses are those each rule's Encoding line gives,
which the spec marks as its decisions D1 and D2 (log 11). -/

open Sys2Proof Sys2Proof.Machine

/-! ## The ALU family -/

/-- R111. ADD, register form: its word, the words beside it that are illegal, its wrapped sum, its flags, and that
nothing else changes. -/
def Obligations.AddRegisterWritesWrappedSum : Prop :=
  ∀ dr sr1 sr2 : Reg,
    decode (0b0001#4 ++ regBits dr ++ regBits sr1 ++ 0b000#3 ++ regBits sr2) = .ok (.addReg dr sr1 sr2) ∧
    (∀ unused : BitVec 2, unused ≠ 0#2 →
      decode (0b0001#4 ++ regBits dr ++ regBits sr1 ++ 0b0#1 ++ unused ++ regBits sr2) = .error .illegalOpcode) ∧
    ∀ s : State, ∃ t, exec (.addReg dr sr1 sr2) s = .next t ∧
      OnlyResult dr (BitVec.ofNat 16 ((s.reg sr1).toNat + (s.reg sr2).toNat)) s t

/-- R112. ADD, immediate form: all 32 immediates, read as -16 to 15. -/
def Obligations.AddImmediateWritesWrappedSum : Prop :=
  ∀ (dr sr1 : Reg) (imm5 : BitVec 5),
    decode (0b0001#4 ++ regBits dr ++ regBits sr1 ++ 0b1#1 ++ imm5) = .ok (.addImm dr sr1 imm5) ∧
    ∀ s : State, ∃ t, exec (.addImm dr sr1 imm5) s = .next t ∧
      OnlyResult dr (wrapSum (s.reg sr1) imm5.toInt) s t

/-- R113. AND, register form: bit by bit; the words beside it are illegal. -/
def Obligations.AndRegisterWritesBitwiseAnd : Prop :=
  ∀ dr sr1 sr2 : Reg,
    decode (0b0101#4 ++ regBits dr ++ regBits sr1 ++ 0b000#3 ++ regBits sr2) = .ok (.andReg dr sr1 sr2) ∧
    (∀ unused : BitVec 2, unused ≠ 0#2 →
      decode (0b0101#4 ++ regBits dr ++ regBits sr1 ++ 0b0#1 ++ unused ++ regBits sr2) = .error .illegalOpcode) ∧
    ∀ s : State, ∃ t, exec (.andReg dr sr1 sr2) s = .next t ∧
      OnlyResult dr (s.reg sr1 &&& s.reg sr2) s t

/-- R114. AND, immediate form: the immediate is sign-extended to 16 bits before the AND. -/
def Obligations.AndImmediateExtendsBeforeAnd : Prop :=
  ∀ (dr sr1 : Reg) (imm5 : BitVec 5),
    decode (0b0101#4 ++ regBits dr ++ regBits sr1 ++ 0b1#1 ++ imm5) = .ok (.andImm dr sr1 imm5) ∧
    ∀ s : State, ∃ t, exec (.andImm dr sr1 imm5) s = .next t ∧
      OnlyResult dr (s.reg sr1 &&& BitVec.ofInt 16 imm5.toInt) s t

/-- R115. NOT: r = xFFFF - x[SR]; a word whose low six bits are not all ones is illegal. -/
def Obligations.NotWritesComplement : Prop :=
  ∀ dr sr : Reg,
    decode (0b1001#4 ++ regBits dr ++ regBits sr ++ 0b111111#6) = .ok (.not dr sr) ∧
    (∀ low : BitVec 6, low ≠ 0b111111#6 →
      decode (0b1001#4 ++ regBits dr ++ regBits sr ++ low) = .error .illegalOpcode) ∧
    ∀ s : State, ∃ t, exec (.not dr sr) s = .next t ∧
      OnlyResult dr (BitVec.ofNat 16 (0xFFFF - (s.reg sr).toNat)) s t

/-! ## Control transfer -/

/-- R130, which the spec marks as its decision D2. BR: taken when a selected flag is set, to the advanced pc plus the offset; else the state is as it was.
Defined for all eight flag combinations and all eight masks. -/
def Obligations.BranchGoesWhereSelectedFlagSays : Prop :=
  ∀ (nzp : BitVec 3) (off9 : BitVec 9),
    decode (0b0000#4 ++ nzp ++ off9) = .ok (.br nzp off9) ∧
    ∀ s : State, ∃ t, exec (.br nzp off9) s = .next t ∧
      (((nzp.getLsbD 2 = true ∧ s.flags.n = true) ∨ (nzp.getLsbD 1 = true ∧ s.flags.z = true) ∨
          (nzp.getLsbD 0 = true ∧ s.flags.p = true)) → OnlyJump (wrapSum s.pc off9.toInt) s t) ∧
      (¬ ((nzp.getLsbD 2 = true ∧ s.flags.n = true) ∨ (nzp.getLsbD 1 = true ∧ s.flags.z = true) ∨
          (nzp.getLsbD 0 = true ∧ s.flags.p = true)) → t = s)

/-- R131. RET: the single word xC1C0; the pc takes R7, which stays. -/
def Obligations.RetJumpsThroughLinkRegister : Prop :=
  decode 0xC1C0#16 = .ok .ret ∧ ∀ s : State, ∃ t, exec .ret s = .next t ∧ OnlyJump (s.reg 7) s t

/-- R132. JMP, every base: with BaseR = 7 the word is reported as RET and JMP's own rule does the same; with any of
bits 11 to 9 or 5 to 0 set the word is illegal. -/
def Obligations.JmpJumpsThroughBase : Prop :=
  ∀ baseR : Reg,
    decode (0b1100#4 ++ 0b000#3 ++ regBits baseR ++ 0b000000#6) = .ok (if baseR = 7 then .ret else .jmp baseR) ∧
    (∀ (high : BitVec 3) (low : BitVec 6), high ≠ 0#3 ∨ low ≠ 0#6 →
      decode (0b1100#4 ++ high ++ regBits baseR ++ low) = .error .illegalOpcode) ∧
    ∀ s : State, ∃ t, exec (.jmp baseR) s = .next t ∧ OnlyJump (s.reg baseR) s t

/-- R133. JSR: R7 receives the advanced pc, the pc the advanced pc plus the offset. -/
def Obligations.JsrLinksAndJumpsRelative : Prop :=
  ∀ off11 : BitVec 11,
    decode (0b0100#4 ++ 0b1#1 ++ off11) = .ok (.jsr off11) ∧
    ∀ s : State, ∃ t, exec (.jsr off11) s = .next t ∧ OnlyLinkedJump (wrapSum s.pc off11.toInt) s t

/-- R134, which the spec marks as its decision D9 (log 8). JSRR, every base, R7 included: the target is the base register's value at entry. -/
def Obligations.JsrrReadsTargetBeforeLinking : Prop :=
  ∀ baseR : Reg,
    decode (0b0100#4 ++ 0b0#1 ++ 0b00#2 ++ regBits baseR ++ 0b000000#6) = .ok (.jsrr baseR) ∧
    ∀ s : State, ∃ t, exec (.jsrr baseR) s = .next t ∧ OnlyLinkedJump (s.reg baseR) s t

/-! ## Loads and LEA -/

/-- R150. LD: one read, the word at the advanced pc plus the offset. -/
def Obligations.LdLoadsPcRelative : Prop :=
  ∀ (dr : Reg) (off9 : BitVec 9),
    decode (0b0010#4 ++ regBits dr ++ off9) = .ok (.ld dr off9) ∧
    ∀ s : State, accesses (.ld dr off9) s = [s.readAccess (wrapSum s.pc off9.toInt)] ∧
      ∃ t, exec (.ld dr off9) s = .next t ∧
      OnlyResult dr (s.read (wrapSum s.pc off9.toInt)) s t

/-- R151. LDI: two reads, pointer then datum; the flags from the datum. -/
def Obligations.LdiLoadsThroughPointer : Prop :=
  ∀ (dr : Reg) (off9 : BitVec 9),
    decode (0b1010#4 ++ regBits dr ++ off9) = .ok (.ldi dr off9) ∧
    ∀ s : State, accesses (.ldi dr off9) s =
        [s.readAccess (wrapSum s.pc off9.toInt), s.readAccess (s.read (wrapSum s.pc off9.toInt))] ∧
      ∃ t, exec (.ldi dr off9) s = .next t ∧
      OnlyResult dr (s.read (s.read (wrapSum s.pc off9.toInt))) s t

/-- R152. LDR: one read, the word at the base register's entry value plus the offset. -/
def Obligations.LdrLoadsBasePlusOffset : Prop :=
  ∀ (dr baseR : Reg) (off6 : BitVec 6),
    decode (0b0110#4 ++ regBits dr ++ regBits baseR ++ off6) = .ok (.ldr dr baseR off6) ∧
    ∀ s : State, accesses (.ldr dr baseR off6) s = [s.readAccess (wrapSum (s.reg baseR) off6.toInt)] ∧
      ∃ t, exec (.ldr dr baseR off6) s = .next t ∧
      OnlyResult dr (s.read (wrapSum (s.reg baseR) off6.toInt)) s t

/-- R153. LEA: the address itself, which sets the flags; no access. -/
def Obligations.LeaWritesAddressAndFlags : Prop :=
  ∀ (dr : Reg) (off9 : BitVec 9),
    decode (0b1110#4 ++ regBits dr ++ off9) = .ok (.lea dr off9) ∧
    ∀ s : State, accesses (.lea dr off9) s = [] ∧ ∃ t, exec (.lea dr off9) s = .next t ∧
      OnlyResult dr (wrapSum s.pc off9.toInt) s t

/-! ## Stores -/

/-- R170. ST: one write; the address is the meaning's own, and equals the wrapped sum of the rule. -/
def Obligations.StStoresPcRelative : Prop :=
  ∀ (sr : Reg) (off9 : BitVec 9),
    decode (0b0011#4 ++ regBits sr ++ off9) = .ok (.st sr off9) ∧
    ∀ s : State, s.pcRelative off9 = wrapSum s.pc off9.toInt ∧
      accesses (.st sr off9) s = [.write (s.pcRelative off9) (s.reg sr)] ∧
      ∃ t, exec (.st sr off9) s = .next t ∧ OnlyStore (s.pcRelative off9) (s.reg sr) s t

/-- R171. STI: one read then one write: the pointer is read, then the datum is stored through it. -/
def Obligations.StiStoresThroughPointer : Prop :=
  ∀ (sr : Reg) (off9 : BitVec 9),
    decode (0b1011#4 ++ regBits sr ++ off9) = .ok (.sti sr off9) ∧
    ∀ s : State, s.indirect off9 = s.read (wrapSum s.pc off9.toInt) ∧
      accesses (.sti sr off9) s =
        [s.readAccess (wrapSum s.pc off9.toInt), .write (s.indirect off9) (s.reg sr)] ∧
      ∃ t, exec (.sti sr off9) s = .next t ∧ OnlyStore (s.indirect off9) (s.reg sr) s t

/-- R172. STR: one write; base plus offset; the base register stays. -/
def Obligations.StrStoresBasePlusOffset : Prop :=
  ∀ (sr baseR : Reg) (off6 : BitVec 6),
    decode (0b0111#4 ++ regBits sr ++ regBits baseR ++ off6) = .ok (.str sr baseR off6) ∧
    ∀ s : State, s.baseOffset baseR off6 = wrapSum (s.reg baseR) off6.toInt ∧
      accesses (.str sr baseR off6) s = [.write (s.baseOffset baseR off6) (s.reg sr)] ∧
      ∃ t, exec (.str sr baseR off6) s = .next t ∧ OnlyStore (s.baseOffset baseR off6) (s.reg sr) s t

/-! ## System -/

/-- R185, which the spec marks as its decision D10. TRAP, every vector: R7 receives the advanced pc, the pc the table entry at the zero-extended vector;
PRIV, the flags, R6 and memory stay. -/
def Obligations.TrapLinksAndEntersHandler : Prop :=
  ∀ vect8 : BitVec 8,
    decode (0b1111#4 ++ 0b0000#4 ++ vect8) = .ok (.trap vect8) ∧
    ∀ s : State, ∃ t, exec (.trap vect8) s = .next t ∧
      OnlyLinkedJump (s.read (BitVec.ofNat 16 vect8.toNat)) s t

/-- R187, which the spec marks as its decisions D13 and D14. RTI: the single word x8000. In privileged mode it pops saved PC and flag-state word through R6; in the other
it raises PrivilegeViolation; that the fault records the address of the RTI, pc - 1, is R202's, the spec's decision D21
(log 14). The two cases exclude each other. -/
def Obligations.RtiReturnsThroughFrameOrFaults : Prop :=
  decode 0x8000#16 = .ok .rti ∧
  ∀ s : State,
    (s.priv = true → ∃ t, exec .rti s = .next t ∧
      t.pc = s.read (s.reg 6) ∧
      t.reg 6 = wrapSum (s.reg 6) 2 ∧
      SameRegsExcept 6 s t ∧
      t.priv = !(s.read (wrapSum (s.reg 6) 1)).getLsbD 15 ∧
      t.flags = ⟨(s.read (wrapSum (s.reg 6) 1)).getLsbD 2, (s.read (wrapSum (s.reg 6) 1)).getLsbD 1,
        (s.read (wrapSum (s.reg 6) 1)).getLsbD 0⟩ ∧
      SameMemory s t) ∧
    (s.priv = false → exec .rti s = .fault (.privilegeViolation (wrapSum s.pc (-1))))

/-! ## Rules about every instruction -/

/-- R110. `setcc`: its three bits, that exactly one is set, and that the setcc group alone uses it, on the value
written to the destination register. -/
def Obligations.SetccGroupFlagsFollowValueWritten : Prop :=
  (∀ v : Word, ((setcc v).n = true ↔ 0x8000 ≤ v.toNat) ∧ ((setcc v).z = true ↔ v.toNat = 0) ∧
    ((setcc v).p = true ↔ 1 ≤ v.toNat ∧ v.toNat ≤ 0x7FFF) ∧ (setcc v).oneHot = true) ∧
  ∀ (i : Instr) (s : State),
    (i.variant ∈ [.addReg, .addImm, .andReg, .andImm, .not, .ld, .ldi, .ldr, .lea] →
      ∃ t dr, exec i s = .next t ∧ regWritten i = some dr ∧ t.flags = setcc (t.reg dr)) ∧
    (i.variant ∈ [.br, .ret, .jmp, .jsr, .jsrr, .st, .sti, .str, .trap] →
      ∃ t, exec i s = .next t ∧ t.flags = s.flags)

/-- R19, derived in the spec. The writers of the flags are the setcc group and RTI; their only reader is BR. -/
def Obligations.FlagsWrittenAndReadPerTable : Prop :=
  ∀ (i : Instr) (s t : State), exec i s = .next t →
    (writesFlags i.variant = false → t.flags = s.flags) ∧
    (writesFlags i.variant = true → i ≠ .rti → ∃ dr, regWritten i = some dr ∧ t.flags = setcc (t.reg dr)) ∧
    (i.variant ≠ .br → ∀ f : Flags, ∃ u, exec i (s.setFlags f) = .next u ∧
      u.regs = t.regs ∧ u.pc = t.pc ∧ u.priv = t.priv ∧ u.mem = t.mem)

/-- R27, derived in the spec. After a step the flags are one-hot, or the step left flags alone that were not, or it was an RTI whose
popped word's low three bits are not. That RTI takes the flags from bits 2, 1, 0 of the word at R6 + 1 is R187's and
R21's, the spec's decisions D13 and D14 (log 12). -/
def Obligations.FlagsOneHotFailsInTwoWaysOnly : Prop :=
  ∀ s t : State, step s = .next t →
    t.flags.oneHot = true ∨ (s.flags.oneHot = false ∧ t.flags = s.flags) ∨
    (s.read s.pc = 0x8000#16 ∧ s.priv = true ∧
      t.flags = flagsOfFlagWord (s.read (wrapSum (s.reg 6) 1)))

/-- R13, derived in the spec. An instruction writes the register of its row and no other, and its effect depends on the registers of its
row and on no other: two states that agree on those agree afterwards. -/
def Obligations.RegistersReadAndWrittenPerTable : Prop :=
  ∀ (i : Instr) (s : State),
    (∀ t, exec i s = .next t → ∀ r, regWritten i ≠ some r → t.reg r = s.reg r) ∧
    ∀ s' : State, s'.pc = s.pc → s'.flags = s.flags → s'.priv = s.priv → s'.mem = s.mem →
      (∀ r ∈ regsRead i, s'.reg r = s.reg r) →
      (∀ t, exec i s = .next t → ∃ t', exec i s' = .next t' ∧ t'.pc = t.pc ∧ t'.flags = t.flags ∧
        t'.priv = t.priv ∧ t'.mem = t.mem ∧ ∀ r, regWritten i = some r → t'.reg r = t.reg r) ∧
      (∀ f, exec i s = .fault f → exec i s' = .fault f)

/-- R17, which the spec marks as its decision D5. Which variants leave the pc at the advanced value: a step of any of them goes on at the next address, and
the address after xFFFF is x0000. -/
def Obligations.PcWrittenPerTable : Prop :=
  ∀ (i : Instr) (s t : State), decode (s.read s.pc) = .ok i → step s = .next t →
    ((writesPc i.variant = false ∨ ∃ nzp off9, i = .br nzp off9 ∧ branchTaken nzp s.flags = false) →
      t.pc.toNat = (s.pc.toNat + 1) % 2 ^ 16) ∧
    (∀ nzp off9, i = .br nzp off9 → branchTaken nzp s.flags = true →
      (t.pc.toNat : Int) = ((s.pc.toNat : Int) + 1 + off9.toInt) % 2 ^ 16) ∧
    (∀ off11, i = .jsr off11 → (t.pc.toNat : Int) = ((s.pc.toNat : Int) + 1 + off11.toInt) % 2 ^ 16)

/-- R33, with the spec's decisions D10 and D13. The access table accounts for memory: what an instruction leaves in memory is what its listed accesses leave,
and its effect depends on memory only through the words its listed reads return. -/
def Obligations.AccessTableAccountsForMemory : Prop :=
  ∀ (i : Instr) (s : State),
    (∀ t, exec i s = .next t → t.mem = Memory.after s.mem (accesses i s)) ∧
    (∀ f, exec i s = .fault f → accesses i s = []) ∧
    ∀ m : Memory, (∀ a v, Access.read a v ∈ accesses i s → Memory.read m a = v) →
      accesses i { s with mem := m } = accesses i s ∧
      ∀ t, exec i s = .next t → ∃ u, exec i { s with mem := m } = .next u ∧
        u.regs = t.regs ∧ u.pc = t.pc ∧ u.flags = t.flags ∧ u.priv = t.priv

/-- R20, which the spec marks as its decision D12. PRIV is read only by RTI's check and written only by RTI's restore: every other instruction runs the same in
both modes and leaves the mode as it is. -/
def Obligations.ModeGatesRtiOnly : Prop :=
  ∀ (i : Instr) (s : State) (b : Bool), i ≠ .rti →
    ∃ t, exec i s = .next t ∧ t.priv = s.priv ∧ exec i (s.setPriv b) = .next (t.setPriv b)

/-- R211, which the spec marks as its decisions D12 and D14. From a state that is not privileged no run of any length reaches a privileged one. -/
def Obligations.PrivilegeNeverRises : Prop :=
  ∀ (k : Nat) (s t : State), s.priv = false → Host.Core.run core k s = .next t → t.priv = false

/-- R27, derived in the spec, and R211, its decisions D12 and D14. Unprivileged code with one-hot flags keeps both,
whatever it runs, and keeps memory canonical; the canonical form is the model's own (log 1). -/
def Obligations.UserInvariantKeptByStep : Prop :=
  ∀ s t : State, s.UserInv → step s = .next t → t.UserInv

/-- The model's own invariant (log 1): memory stays in its canonical form under every step. -/
def Obligations.CanonicalMemoryKeptByStep : Prop :=
  ∀ s t : State, s.Inv → step s = .next t → t.Inv

/-- The canonical form holds at reset, and for every canonical image a host loads (log 1, log 6). -/
def Obligations.CanonicalMemoryAtReset : Prop :=
  State.reset.Inv ∧
  ∀ (r : ResetParams) (image : List (Word × Word)), r.mem.wf →
    (State.resetWith { r with mem := Memory.load r.mem image }).Inv

/-- The canonical form is canonical (log 1): two memories in it that read alike are equal. -/
def Obligations.CanonicalMemoriesThatReadAlikeAreEqual : Prop :=
  ∀ m m' : Memory, m.wf → m'.wf → (∀ a, Memory.read m a = Memory.read m' a) → m = m'

/-- R43, which the spec marks as its decision D5, and R154. The addressing modes are sums modulo 2^16, for every offset width the encodings use or could use. -/
def Obligations.AddressingModesAreWrappedSums : Prop :=
  ∀ s : State,
    (∀ (n : Nat) (off : BitVec n), n ≤ 16 →
      ((s.pcRelative off).toNat : Int) = ((s.pc.toNat : Int) + off.toInt) % 2 ^ 16) ∧
    (∀ off9 : BitVec 9, s.indirect off9 = s.read (wrapSum s.pc off9.toInt)) ∧
    (∀ (baseR : Reg) (off6 : BitVec 6),
      ((s.baseOffset baseR off6).toNat : Int) = (((s.reg baseR).toNat : Int) + off6.toInt) % 2 ^ 16) ∧
    (∀ vect8 : BitVec 8, (trapEntryAddr vect8).toNat = vect8.toNat)

/-! ## The step, the faults, the run -/

/-- R16, which the spec marks as its decision D8. A step fetches at pc, advances pc, and runs the instruction the word decodes to on that state. -/
def Obligations.StepRunsDecodedInstruction : Prop :=
  ∀ s : State,
    step s = invoke (s.read s.pc) { s with pc := BitVec.ofNat 16 (s.pc.toNat + 1) } ∧
    ∀ i : Instr, decode (s.read s.pc) = .ok i →
      step s = exec i { s with pc := BitVec.ofNat 16 (s.pc.toNat + 1) }

/-- R201, which the spec marks as its decision D21. A step raises IllegalOpcode exactly on the words of R64's table, in either mode, and records the word and
the address it was fetched from. -/
def Obligations.IllegalOpcodeOnTableWordsOnly : Prop :=
  ∀ s : State,
    (illegalByTable (s.read s.pc) = true → step s = .fault (.illegalOpcode (s.read s.pc) s.pc)) ∧
    (∀ w a, step s = .fault (.illegalOpcode w a) →
      illegalByTable (s.read s.pc) = true ∧ w = s.read s.pc ∧ a = s.pc)

/-- R200, R208, and R202, which the spec marks as its decision D21. A step answers a next state or one of the two faults, never a refusal; an instruction
faults only if it is an RTI with PRIV = 0, which records its address; and the two faults exclude each other. -/
def Obligations.OnlyTwoFaultsAndWhen : Prop :=
  (∀ (i : Instr) (s : State), (i ≠ .rti ∨ s.priv = true) → ∃ t, exec i s = .next t) ∧
  ∀ s : State,
    ((∃ t, step s = .next t) ∨ step s = .fault (.illegalOpcode (s.read s.pc) s.pc) ∨
      step s = .fault (.privilegeViolation s.pc)) ∧
    (step s = .fault (.privilegeViolation s.pc) ↔ s.read s.pc = 0x8000#16 ∧ s.priv = false)

/-- R203, derived in the spec, and R204, its decision D16. A run stops at its first fault, in the faulting state with only the pc advanced, and no further step
changes that; likewise at its normal end. -/
def Obligations.RunStopsAtFirstFault : Prop :=
  ∀ (endOfRun : State → Bool),
    (∀ (k : Nat) (s : State) (f : Fault), endOfRun s = false → step s = .fault f →
      runUntil endOfRun (k + 1) s =
        .faulted f { s with pc := BitVec.ofNat 16 (s.pc.toNat + 1) }) ∧
    (∀ (j k : Nat) (s u : State) (f : Fault), runUntil endOfRun k s = .faulted f u →
      runUntil endOfRun (k + j) s = .faulted f u) ∧
    (∀ (j k : Nat) (s u : State), runUntil endOfRun k s = .ended u → runUntil endOfRun (k + j) s = .ended u)

/-- R234, which the spec marks as its decision D19. A run ends normally only where the predicate holds, abnormally only by a fault of a step, and with a
predicate that never holds and no fault it never ends. -/
def Obligations.RunEndsByPredicateOrFaultOnly : Prop :=
  ∀ (endOfRun : State → Bool) (k : Nat) (s : State),
    (endOfRun s = true → runUntil endOfRun k s = .ended s) ∧
    (∀ f, endOfRun s = false → step s = .fault f → runUntil endOfRun (k + 1) s = .faulted f s.advance) ∧
    (∀ u, runUntil endOfRun k s = .ended u → endOfRun u = true) ∧
    (∀ u f, runUntil endOfRun k s = .faulted f u → ∃ v, step v = .fault f ∧ u = v.advance) ∧
    (∀ u r, runUntil endOfRun k s ≠ .refused r u) ∧
    (FaultFree k s → (∀ u, endOfRun u = false) → ∃ u, runUntil endOfRun k s = .running u)

/-- R40, which the spec marks as its decision D8. What a store writes is what the next fetch at that address reads, the very next one included. -/
def Obligations.StoreSeenByNextFetch : Prop :=
  ∀ (i : Instr) (s : State) (a v : Word), Access.write a v ∈ accesses i s →
    ∃ t, exec i s = .next t ∧
      step (t.setPc a) = invoke v (t.setPc (a + 1#16)) ∧
      (a = t.pc → step t = invoke v t.advance)

/-- R135, R210. Each linking transfer followed by RET goes on at the address after the transfer. -/
def Obligations.LinkedTransferReturnsByRet : Prop :=
  ∀ (i : Instr) (s : State), i.variant ∈ [.jsr, .jsrr, .trap] →
    ∃ t u, exec i s = .next t ∧ exec .ret t = .next u ∧ u.pc = s.pc

/-! ## Encoding and decoding -/

/-- R77. Decoding an encoded well-formed instruction gives it back, every operand at every value; the one exception,
`jmp R7`, decodes as RET and has RET's effect. -/
def Obligations.DecodeOfEncodeIsIdentity : Prop :=
  (∀ i : Instr, i.wellFormed = true → decode (encode i) = .ok i) ∧
  (∀ i : Instr, i.wellFormed = false → i = .jmp 7) ∧
  decode (encode (.jmp 7)) = .ok .ret ∧ ∀ s : State, exec (.jmp 7) s = exec .ret s

/-- R91, R95, R55, R73 and R63. A word that decodes is the encoding of what it decodes to: its Fixed bits are the
template's and its variable bits are the extracted values, at the places R73 puts them. That instruction is
well-formed: xC1C0 is reported as RET. The other direction is R98 (c)'s, stated above. -/
def Obligations.EncodeOfDecodeIsIdentity : Prop :=
  ∀ (w : Word) (i : Instr), decode w = .ok i → encode i = w ∧ i.wellFormed = true

/-- R99, derived in the spec. The sequential scan, the decision tree on bits 15 to 12, and the comparators with a priority encoder give
the same template for every word. -/
def Obligations.SelectorFormsAgree : Prop :=
  ∀ w : Word, selectByOpcode w = selectTemplate w ∧ templateIdParallel w = templateId w

/-- R63, derived in the spec. Exactly one word matches more than one template: xC1C0, RET and JMP; it is reported as RET. -/
def Obligations.OnlyOneWordMatchesTwoTemplates : Prop :=
  (∀ (w : Word) (v v' : Variant), v ≠ v' → v.matchesWord w = true → v'.matchesWord w = true →
    w = 0xC1C0#16 ∧ v ∈ [.ret, .jmp] ∧ v' ∈ [.ret, .jmp]) ∧
  Variant.ret.matchesWord 0xC1C0#16 = true ∧ Variant.jmp.matchesWord 0xC1C0#16 = true ∧
  templateId 0xC1C0#16 = some 7

/-- R64, derived in the spec. The words no template matches are exactly those of the table of illegal words. -/
def Obligations.IllegalWordsAreTheTable : Prop :=
  ∀ w : Word, decode w = .error .illegalOpcode ↔ illegalByTable w = true

/-- R62, R55. The `match` and `mask` columns are what the field lists of R60 give, and `#` is the catalog position. -/
def Obligations.MatchAndMaskFollowFromFields : Prop :=
  ∀ v : Variant, v.mask = BitVec.ofNat 16 (fixedMask v.placed) ∧ v.matchBits = BitVec.ofNat 16 (fixedMatch v.placed) ∧
    catalog[v.order - 1]? = some v ∧ 1 ≤ v.order

/-- R54. The field widths of every template sum to 16, every Register field is 3 bits wide (R53), and as many fields
are populated as the template's arity, the arity column of R60. -/
def Obligations.FieldWidthsSumToSixteen : Prop :=
  (∀ v : Variant, (v.fields.map Field.width).sum = 16 ∧ (∀ f ∈ v.fields, f.kind = .register → f.width = 3) ∧
    ∀ w : Word, (extract v w).fieldValues.length = v.arity) ∧
  catalog.map Variant.arity = [3, 3, 3, 3, 2, 2, 0, 1, 1, 1, 2, 2, 3, 2, 2, 2, 3, 1, 0]

/-- R55, R95. The extractor copies, for every variable field in declaration order, the bits its place in the field
list gives; it changes no template and never fails. -/
def Obligations.ExtractorCopiesPlacedBits : Prop :=
  ∀ (v : Variant) (w : Word),
    (extract v w).variant = v ∧ (extract v w).fieldValues = extractFields v w ∧
    (extractFields v w).length = v.arity

/-- R93, R63. Reordering the catalog changes only the reported name: the same words are rejected, and the selected
template's effect is the same on every state. -/
def Obligations.CatalogOrderChangesNoEffect : Prop :=
  ∀ (cat : List Variant) (w : Word), cat.Perm catalog →
    ((selectFrom cat w).isSome = (selectTemplate w).isSome) ∧
    ∀ v v', selectFrom cat w = some v → selectTemplate w = some v' →
      ∀ s : State, exec (extract v w) s = exec (extract v' w) s

/-- R5. Without the BR template every word with bits 15 to 12 zero is rejected, and no other word is affected. -/
def Obligations.WithoutBrOpcodeZeroIsIllegal : Prop :=
  ∀ w : Word,
    (w.toNat < 0x1000 → selectFrom (catalogWith false) w = none) ∧
    (0x1000 ≤ w.toNat → selectFrom (catalogWith false) w = selectFrom (catalogWith true) w)

/-- Decode sample: words written out from the spec's encodings (R60, vectors V1 to V57), one or more per family. -/
def Obligations.SampleWordsDecodeAsTheSpecSays : Prop :=
  decode 0x1283#16 = .ok (.addReg 1 2 3) ∧ decode 0x127F#16 = .ok (.addImm 1 1 0b11111#5) ∧
  decode 0x5946#16 = .ok (.andReg 4 5 6) ∧ decode 0x94FF#16 = .ok (.not 2 3) ∧
  decode 0x0403#16 = .ok (.br 0b010#3 3#9) ∧ decode 0x41C0#16 = .ok (.jsrr 7) ∧
  decode 0x64FE#16 = .ok (.ldr 2 3 0b111110#6) ∧ decode 0xB5FE#16 = .ok (.sti 2 0b111111110#9) ∧
  decode 0xF025#16 = .ok (.trap 0x25#8) ∧ decode 0xD000#16 = .error .illegalOpcode ∧
  decode 0x1008#16 = .error .illegalOpcode

/-! ## Reset -/

/-- R231, which the spec marks as its decision D18. The reset state takes every value from the reset parameters, whatever they are, and execution starts with
the fetch at RESET_PC: no reset vector is read from memory. -/
def Obligations.ResetTakesEveryValueFromParameters : Prop :=
  ∀ r : ResetParams,
    (State.resetWith r).regs = r.regs ∧ (State.resetWith r).flags = r.flags ∧ (State.resetWith r).priv = r.priv ∧
    (State.resetWith r).pc = r.pc ∧ (State.resetWith r).mem = r.mem ∧
    step (State.resetWith r) =
      invoke (Memory.read r.mem r.pc) (State.resetWith { r with pc := r.pc + 1#16 })

/-- The model's choice (logs 2 to 6), not a rule of the spec: the values State.reset holds. -/
def Obligations.ResetHoldsTheValuesTheLogNames : Prop :=
  (∀ r, State.reset.reg r = 0x0000#16) ∧ State.reset.pc = 0x3000#16 ∧ State.reset.flags = ⟨false, false, false⟩ ∧
  State.reset.priv = true ∧ ∀ a, State.reset.read a = 0x0000#16

/-! ## The assembler direction -/

/-- R73, R98. Any values that fit their fields, placed in a template's word, are read back from it by the extractor,
and the word selects that template (RET for JMP with BaseR = 7). -/
def Obligations.PlacedFieldsAreReadBack : Prop :=
  ∀ (v : Variant) (values : List Nat),
    List.Forall₂ (fun x f => x < 2 ^ f.width) values (v.fields.filter Field.isVariable) →
    extractFields v (placeFields v values) = values ∧
    selectTemplate (placeFields v values) = some (if v = .jmp ∧ values = [7] then .ret else v)

/-- R52, R72. An immediate in its legal range encodes to bits that read back as the same integer; one outside it is
reported with the range. -/
def Obligations.ImmediateEncodesExactlyItsRange : Prop :=
  ∀ (ctx : AsmContext) (token : Token) (x : Int) (w : Nat), ctx.parseLiteral token.text = some x → 1 ≤ w →
    (-(2 ^ (w - 1) : Int) ≤ x ∧ x ≤ 2 ^ (w - 1) - 1 →
      ∃ b, encodeField ctx ⟨.immediate true, w⟩ token = .ok b ∧ b < 2 ^ w ∧ (BitVec.ofNat w b).toInt = x) ∧
    (¬ (-(2 ^ (w - 1) : Int) ≤ x ∧ x ≤ 2 ^ (w - 1) - 1) →
      encodeField ctx ⟨.immediate true, w⟩ token =
        .error (.immediateOutOfRange (-(2 ^ (w - 1) : Int)) (2 ^ (w - 1) - 1))) ∧
    (0 ≤ x ∧ x ≤ 2 ^ w - 1 →
      ∃ b, encodeField ctx ⟨.immediate false, w⟩ token = .ok b ∧ b < 2 ^ w ∧ (b : Int) = x) ∧
    (¬ (0 ≤ x ∧ x ≤ 2 ^ w - 1) →
      encodeField ctx ⟨.immediate false, w⟩ token = .error (.immediateOutOfRange 0 (2 ^ w - 1)))

/-- R72, R133, R154. A label's offset, encoded at an address, makes the executor reach the label's address from the
advanced pc. -/
def Obligations.EncodedLabelReachesItsTarget : Prop :=
  ∀ (ctx : AsmContext) (token : Token) (target : Word) (w b : Nat) (s : State), 1 ≤ w → w ≤ 16 →
    ctx.labelTable token.text = some target → encodeField ctx ⟨.label, w⟩ token = .ok b →
    s.pc = ctx.address + 1#16 → s.pcRelative (BitVec.ofNat w b) = target

/-- R71, R77. A line that assembles has the line's mnemonic and its operand count, and its word selects the template
chosen for it (RET where JMP was chosen with R7). -/
def Obligations.AssembledLineSelectsItsTemplate : Prop :=
  ∀ (ctx : AsmContext) (mnemonic : Token) (tokens : List Token) (v : Variant) (w : Word),
    assembleLine ctx mnemonic tokens = .ok (v, w) →
    v.mnemonic = mnemonic.text ∧ v.arity = tokens.length ∧
    (selectTemplate w = some v ∨ (v = .jmp ∧ w = 0xC1C0#16 ∧ selectTemplate w = some .ret))

/-- R74, with the choice of severity the model's (log 10) and the format of messages left open (R4, log 9). Each line
gives one result: the word where it encodes, else one record with the failure's kind, the file's name and the line's
text; a bad line changes no other line's result; and one record for each bad line, in order, reaches the sink. -/
def Obligations.EachBadLineGivesOneDiagnostic : Prop :=
  ∀ (file : SourceFile) (before after : List Line) (l : Line),
    (∀ r, assembleLine (file.context l) l.mnemonic l.tokens = .ok r →
      assembleLines file (before ++ l :: after) = assembleLines file before ++ .ok r :: assembleLines file after ∧
      diagnostics file (before ++ l :: after) = diagnostics file before ++ diagnostics file after) ∧
    (∀ kind, assembleLine (file.context l) l.mnemonic l.tokens = .error kind →
      ∃ d : Diagnostic, d.severity = .fatalForLine ∧ d.kind = kind ∧ d.filename = file.filename ∧
        d.lineText = l.text ∧ d.message = file.formatMessage kind l ∧
        assembleLines file (before ++ l :: after) =
          assembleLines file before ++ .error d :: assembleLines file after ∧
        diagnostics file (before ++ l :: after) = diagnostics file before ++ d :: diagnostics file after)

/-- R70, R72. The encoder reads a token's text and nothing else of it: two lines whose tokens have the same texts, at
whatever source lines and columns, give the same word or fail alike. -/
def Obligations.TokenPositionsChangeNoEncoding : Prop :=
  ∀ (ctx : AsmContext) (mnemonic mnemonic' : Token) (tokens tokens' : List Token),
    mnemonic.text = mnemonic'.text → tokens.map Token.text = tokens'.map Token.text →
    assembleLine ctx mnemonic tokens = assembleLine ctx mnemonic' tokens'
end

