-- ==== Sys2Proof/Laws/Memory.lean ====
section
/-! SUPPORT. The laws of memory: a read after a write, and that every memory operation keeps the canonical form. -/

namespace Sys2Proof.Machine

@[simp] theorem Memory.lookup_nil (a : Nat) : Memory.lookup [] a = Memory.unlisted := rfl

theorem Memory.lookup_cons (c : Nat × Word) (m : Memory) (a : Nat) :
    Memory.lookup (c :: m) a = if c.1 = a then c.2 else Memory.lookup m a := rfl

/-- Erasing an address makes it read as unlisted and leaves every other one alone. -/
theorem Memory.lookup_erase (m : Memory) (a b : Nat) :
    Memory.lookup (Memory.erase m a) b = if b = a then Memory.unlisted else Memory.lookup m b := by
  induction m with
  | nil => simp [Memory.erase]
  | cons c m ih =>
    unfold Memory.erase
    by_cases hca : c.1 = a
    · rw [if_pos hca, ih, Memory.lookup_cons]
      by_cases hba : b = a
      · simp [hba]
      · have hcb : c.1 ≠ b := fun h => hba (h ▸ hca)
        simp [hba, hcb]
    · rw [if_neg hca, Memory.lookup_cons, ih, Memory.lookup_cons]
      by_cases hcb : c.1 = b
      · have hba : b ≠ a := fun h => hca (hcb.trans h)
        simp [hcb, hba]
      · simp [hcb]

/-- Inserting at an address that has no entry sets it and leaves every other one alone. -/
theorem Memory.lookup_insert (m : Memory) (a b : Nat) (v : Word) (h : ∀ c ∈ m, c.1 ≠ a) :
    Memory.lookup (Memory.insert m a v) b = if b = a then v else Memory.lookup m b := by
  induction m with
  | nil => simp [Memory.insert, Memory.lookup_cons, eq_comm]
  | cons c m ih =>
    have hc : c.1 ≠ a := h c (by simp)
    unfold Memory.insert
    by_cases hac : a < c.1
    · rw [if_pos hac, Memory.lookup_cons]
      simp [eq_comm]
    · rw [if_neg hac, Memory.lookup_cons, ih (fun d hd => h d (by simp [hd])), Memory.lookup_cons]
      by_cases hcb : c.1 = b
      · have hba : b ≠ a := hcb ▸ hc
        simp [hcb, hba]
      · simp [hcb]

theorem Memory.mem_erase {m : Memory} {a : Nat} {c : Nat × Word} :
    c ∈ Memory.erase m a ↔ c ∈ m ∧ c.1 ≠ a := by
  induction m with
  | nil => simp [Memory.erase]
  | cons d m ih =>
    unfold Memory.erase
    by_cases hda : d.1 = a
    · rw [if_pos hda, ih]
      constructor
      · exact fun ⟨h, hn⟩ => ⟨List.mem_cons_of_mem _ h, hn⟩
      · rintro ⟨h, hn⟩
        rcases List.mem_cons.1 h with rfl | h
        · exact absurd hda hn
        · exact ⟨h, hn⟩
    · rw [if_neg hda, List.mem_cons, ih, List.mem_cons]
      constructor
      · rintro (rfl | ⟨h, hn⟩)
        · exact ⟨.inl rfl, hda⟩
        · exact ⟨.inr h, hn⟩
      · rintro ⟨rfl | h, hn⟩
        · exact .inl rfl
        · exact .inr ⟨h, hn⟩

theorem Memory.mem_insert {m : Memory} {a : Nat} {v : Word} {c : Nat × Word} :
    c ∈ Memory.insert m a v ↔ c = (a, v) ∨ c ∈ m := by
  induction m with
  | nil => simp [Memory.insert]
  | cons d m ih =>
    unfold Memory.insert
    split
    · simp
    · simp only [List.mem_cons, ih]
      tauto

/-- A read after a write (R32, R36, R39 c): the value written there, the old value elsewhere. -/
theorem Memory.read_write (m : Memory) (a b v : Word) :
    Memory.read (Memory.write m a v) b = if b = a then v else Memory.read m b := by
  have key : (b.toNat = a.toNat) = (b = a) := by rw [BitVec.toNat_inj]
  unfold Memory.read Memory.write
  split
  · next hv => simp [Memory.lookup_erase, key, hv]
  · rw [Memory.lookup_insert _ _ _ _ fun c hc => (Memory.mem_erase.1 hc).2, Memory.lookup_erase]
    by_cases hb : b = a <;> simp [key, hb]

theorem Memory.wf_nil : Memory.wf [] := ⟨List.Pairwise.nil, fun _ h => absurd h (by simp)⟩

theorem Memory.wf_erase {m : Memory} (h : m.wf) (a : Nat) : (Memory.erase m a).wf := by
  refine ⟨?_, fun c hc => h.2 c (Memory.mem_erase.1 hc).1⟩
  have hp := h.1
  clear h
  induction m with
  | nil => simp [Memory.erase]
  | cons c m ih =>
    rw [List.pairwise_cons] at hp
    unfold Memory.erase
    split
    · exact ih hp.2
    · exact List.pairwise_cons.2 ⟨fun d hd => hp.1 d (Memory.mem_erase.1 hd).1, ih hp.2⟩

theorem Memory.wf_insert {m : Memory} (h : m.wf) {a : Nat} {v : Word} (ha : a < 2 ^ 16)
    (hv : v ≠ Memory.unlisted) (hfree : ∀ c ∈ m, c.1 ≠ a) : (Memory.insert m a v).wf := by
  constructor
  · have hp := h.1
    clear h ha hv
    induction m with
    | nil => simp [Memory.insert]
    | cons c m ih =>
      rw [List.pairwise_cons] at hp
      have hca : c.1 ≠ a := hfree c (by simp)
      unfold Memory.insert
      split
      · next hlt =>
        refine List.pairwise_cons.2 ⟨fun d hd => ?_, List.pairwise_cons.2 hp⟩
        rcases List.mem_cons.1 hd with rfl | hd
        · exact hlt
        · exact hlt.trans (hp.1 d hd)
      · next hge =>
        refine List.pairwise_cons.2 ⟨fun d hd => ?_, ih (fun d hd => hfree d (by simp [hd])) hp.2⟩
        rcases Memory.mem_insert.1 hd with rfl | hd
        · exact lt_of_le_of_ne (Nat.le_of_not_lt hge) hca
        · exact hp.1 d hd
  · intro c hc
    rcases Memory.mem_insert.1 hc with rfl | hc
    · exact ⟨ha, hv⟩
    · exact h.2 c hc

/-- A write keeps the canonical form. -/
theorem Memory.wf_write {m : Memory} (h : m.wf) (a v : Word) : (Memory.write m a v).wf := by
  unfold Memory.write
  split
  · exact Memory.wf_erase h _
  · next hv => exact Memory.wf_insert (Memory.wf_erase h _) a.isLt hv fun c hc => (Memory.mem_erase.1 hc).2

/-- Loading an image keeps the canonical form. -/
theorem Memory.wf_load {m : Memory} (h : m.wf) (image : List (Word × Word)) : (Memory.load m image).wf := by
  induction image generalizing m with
  | nil => exact h
  | cons c image ih => exact ih (Memory.wf_write h c.1 c.2)

end Sys2Proof.Machine
end

