-- ==== Sys2Proof/Laws/PerInstr.lean ====
section
/-! SUPPORT. The statements made of every instruction, one lemma per constructor. -/

namespace Sys2Proof.Laws.EncodeMatches

/-- The word of an instruction matches its own template's Fixed bits (spec/30_encoding.md R73, R91). -/
def Statement (i : Instr) : Prop := i.variant.matchesWord (encode i) = true

/-- Two words agree when their sixteen bits do. -/
theorem eq_of_bits {x y : Word} (h : ∀ k, k < 16 → x.getLsbD k = y.getLsbD k) : x = y :=
  BitVec.eq_of_getLsbD_eq h

theorem addReg (dr : Reg) (sr1 : Reg) (sr2 : Reg) : Statement (.addReg dr sr1 sr2) := by
  refine beq_iff_eq.2 (eq_of_bits fun k hk => ?_)
  simp only [Instr.variant, Variant.mask, Variant.matchBits, encode]
  interval_cases k <;> simp only [BitVec.getLsbD_and, BitVec.getLsbD_append] <;> simp

theorem addImm (dr : Reg) (sr1 : Reg) (imm5 : BitVec 5) : Statement (.addImm dr sr1 imm5) := by
  refine beq_iff_eq.2 (eq_of_bits fun k hk => ?_)
  simp only [Instr.variant, Variant.mask, Variant.matchBits, encode]
  interval_cases k <;> simp only [BitVec.getLsbD_and, BitVec.getLsbD_append] <;> simp

theorem andReg (dr : Reg) (sr1 : Reg) (sr2 : Reg) : Statement (.andReg dr sr1 sr2) := by
  refine beq_iff_eq.2 (eq_of_bits fun k hk => ?_)
  simp only [Instr.variant, Variant.mask, Variant.matchBits, encode]
  interval_cases k <;> simp only [BitVec.getLsbD_and, BitVec.getLsbD_append] <;> simp

theorem andImm (dr : Reg) (sr1 : Reg) (imm5 : BitVec 5) : Statement (.andImm dr sr1 imm5) := by
  refine beq_iff_eq.2 (eq_of_bits fun k hk => ?_)
  simp only [Instr.variant, Variant.mask, Variant.matchBits, encode]
  interval_cases k <;> simp only [BitVec.getLsbD_and, BitVec.getLsbD_append] <;> simp

theorem not (dr : Reg) (sr : Reg) : Statement (.not dr sr) := by
  refine beq_iff_eq.2 (eq_of_bits fun k hk => ?_)
  simp only [Instr.variant, Variant.mask, Variant.matchBits, encode]
  interval_cases k <;> simp only [BitVec.getLsbD_and, BitVec.getLsbD_append] <;> simp

theorem br (nzp : BitVec 3) (off9 : BitVec 9) : Statement (.br nzp off9) := by
  refine beq_iff_eq.2 (eq_of_bits fun k hk => ?_)
  simp only [Instr.variant, Variant.mask, Variant.matchBits, encode]
  interval_cases k <;> simp only [BitVec.getLsbD_and, BitVec.getLsbD_append] <;> simp

theorem ret : Statement .ret := by
  simp [Statement, Variant.matchesWord, Instr.variant, encode, Variant.mask, Variant.matchBits]

theorem jmp (baseR : Reg) : Statement (.jmp baseR) := by
  refine beq_iff_eq.2 (eq_of_bits fun k hk => ?_)
  simp only [Instr.variant, Variant.mask, Variant.matchBits, encode]
  interval_cases k <;> simp only [BitVec.getLsbD_and, BitVec.getLsbD_append] <;> simp

theorem jsr (off11 : BitVec 11) : Statement (.jsr off11) := by
  refine beq_iff_eq.2 (eq_of_bits fun k hk => ?_)
  simp only [Instr.variant, Variant.mask, Variant.matchBits, encode]
  interval_cases k <;> simp only [BitVec.getLsbD_and, BitVec.getLsbD_append] <;> simp

theorem jsrr (baseR : Reg) : Statement (.jsrr baseR) := by
  refine beq_iff_eq.2 (eq_of_bits fun k hk => ?_)
  simp only [Instr.variant, Variant.mask, Variant.matchBits, encode]
  interval_cases k <;> simp only [BitVec.getLsbD_and, BitVec.getLsbD_append] <;> simp

theorem ld (dr : Reg) (off9 : BitVec 9) : Statement (.ld dr off9) := by
  refine beq_iff_eq.2 (eq_of_bits fun k hk => ?_)
  simp only [Instr.variant, Variant.mask, Variant.matchBits, encode]
  interval_cases k <;> simp only [BitVec.getLsbD_and, BitVec.getLsbD_append] <;> simp

theorem ldi (dr : Reg) (off9 : BitVec 9) : Statement (.ldi dr off9) := by
  refine beq_iff_eq.2 (eq_of_bits fun k hk => ?_)
  simp only [Instr.variant, Variant.mask, Variant.matchBits, encode]
  interval_cases k <;> simp only [BitVec.getLsbD_and, BitVec.getLsbD_append] <;> simp

theorem ldr (dr : Reg) (baseR : Reg) (off6 : BitVec 6) : Statement (.ldr dr baseR off6) := by
  refine beq_iff_eq.2 (eq_of_bits fun k hk => ?_)
  simp only [Instr.variant, Variant.mask, Variant.matchBits, encode]
  interval_cases k <;> simp only [BitVec.getLsbD_and, BitVec.getLsbD_append] <;> simp

theorem lea (dr : Reg) (off9 : BitVec 9) : Statement (.lea dr off9) := by
  refine beq_iff_eq.2 (eq_of_bits fun k hk => ?_)
  simp only [Instr.variant, Variant.mask, Variant.matchBits, encode]
  interval_cases k <;> simp only [BitVec.getLsbD_and, BitVec.getLsbD_append] <;> simp

theorem st (sr : Reg) (off9 : BitVec 9) : Statement (.st sr off9) := by
  refine beq_iff_eq.2 (eq_of_bits fun k hk => ?_)
  simp only [Instr.variant, Variant.mask, Variant.matchBits, encode]
  interval_cases k <;> simp only [BitVec.getLsbD_and, BitVec.getLsbD_append] <;> simp

theorem sti (sr : Reg) (off9 : BitVec 9) : Statement (.sti sr off9) := by
  refine beq_iff_eq.2 (eq_of_bits fun k hk => ?_)
  simp only [Instr.variant, Variant.mask, Variant.matchBits, encode]
  interval_cases k <;> simp only [BitVec.getLsbD_and, BitVec.getLsbD_append] <;> simp

theorem str (sr : Reg) (baseR : Reg) (off6 : BitVec 6) : Statement (.str sr baseR off6) := by
  refine beq_iff_eq.2 (eq_of_bits fun k hk => ?_)
  simp only [Instr.variant, Variant.mask, Variant.matchBits, encode]
  interval_cases k <;> simp only [BitVec.getLsbD_and, BitVec.getLsbD_append] <;> simp

theorem trap (vect8 : BitVec 8) : Statement (.trap vect8) := by
  refine beq_iff_eq.2 (eq_of_bits fun k hk => ?_)
  simp only [Instr.variant, Variant.mask, Variant.matchBits, encode]
  interval_cases k <;> simp only [BitVec.getLsbD_and, BitVec.getLsbD_append] <;> simp

theorem rti : Statement .rti := by
  simp [Statement, Variant.matchesWord, Instr.variant, encode, Variant.mask, Variant.matchBits]

end Sys2Proof.Laws.EncodeMatches
end

