-- ==== Sys2Proof/Laws/State.lean ====
section
/-! SUPPORT. One lemma per field per update, and one lemma per shared operation saying all it does, so that no proof
unfolds a record update. -/

namespace Sys2Proof.Machine

variable (s : State) (r q : Reg) (v a b : Word) (f : Flags) (m : Bool)

/-! ## setReg -/

theorem State.reg_setReg : (s.setReg r v).reg q = if q = r then v else s.reg q := by
  simp only [State.reg, State.setReg, Fin.getElem_fin, Vector.getElem_set]
  by_cases h : q = r
  · simp [h]
  · have h' : r.val ≠ q.val := fun e => h (Fin.ext e.symm)
    simp [h, h']

@[simp] theorem State.reg_setReg_self : (s.setReg r v).reg r = v := by simp [State.reg_setReg]
@[simp] theorem State.reg_setReg_ne {s : State} {r q : Reg} {v : Word} (h : q ≠ r) :
    (s.setReg r v).reg q = s.reg q := by simp [State.reg_setReg, h]
@[simp] theorem State.pc_setReg : (s.setReg r v).pc = s.pc := rfl
@[simp] theorem State.flags_setReg : (s.setReg r v).flags = s.flags := rfl
@[simp] theorem State.priv_setReg : (s.setReg r v).priv = s.priv := rfl
@[simp] theorem State.mem_setReg : (s.setReg r v).mem = s.mem := rfl
@[simp] theorem State.read_setReg : (s.setReg r v).read a = s.read a := rfl

/-! ## setPc -/

@[simp] theorem State.reg_setPc : (s.setPc v).reg q = s.reg q := rfl
@[simp] theorem State.regs_setPc : (s.setPc v).regs = s.regs := rfl
@[simp] theorem State.pc_setPc : (s.setPc v).pc = v := rfl
@[simp] theorem State.flags_setPc : (s.setPc v).flags = s.flags := rfl
@[simp] theorem State.priv_setPc : (s.setPc v).priv = s.priv := rfl
@[simp] theorem State.mem_setPc : (s.setPc v).mem = s.mem := rfl
@[simp] theorem State.read_setPc : (s.setPc v).read a = s.read a := rfl

/-! ## setFlags -/

@[simp] theorem State.reg_setFlags : (s.setFlags f).reg q = s.reg q := rfl
@[simp] theorem State.regs_setFlags : (s.setFlags f).regs = s.regs := rfl
@[simp] theorem State.pc_setFlags : (s.setFlags f).pc = s.pc := rfl
@[simp] theorem State.flags_setFlags : (s.setFlags f).flags = f := rfl
@[simp] theorem State.priv_setFlags : (s.setFlags f).priv = s.priv := rfl
@[simp] theorem State.mem_setFlags : (s.setFlags f).mem = s.mem := rfl
@[simp] theorem State.read_setFlags : (s.setFlags f).read a = s.read a := rfl

/-! ## setPriv -/

@[simp] theorem State.reg_setPriv : (s.setPriv m).reg q = s.reg q := rfl
@[simp] theorem State.regs_setPriv : (s.setPriv m).regs = s.regs := rfl
@[simp] theorem State.pc_setPriv : (s.setPriv m).pc = s.pc := rfl
@[simp] theorem State.flags_setPriv : (s.setPriv m).flags = s.flags := rfl
@[simp] theorem State.priv_setPriv : (s.setPriv m).priv = m := rfl
@[simp] theorem State.mem_setPriv : (s.setPriv m).mem = s.mem := rfl
@[simp] theorem State.read_setPriv : (s.setPriv m).read a = s.read a := rfl

/-! ## write -/

@[simp] theorem State.reg_write : (s.write a v).reg q = s.reg q := rfl
@[simp] theorem State.regs_write : (s.write a v).regs = s.regs := rfl
@[simp] theorem State.pc_write : (s.write a v).pc = s.pc := rfl
@[simp] theorem State.flags_write : (s.write a v).flags = s.flags := rfl
@[simp] theorem State.priv_write : (s.write a v).priv = s.priv := rfl
@[simp] theorem State.mem_write : (s.write a v).mem = Memory.write s.mem a v := rfl
theorem State.read_write : (s.write a v).read b = if b = a then v else s.read b := Memory.read_write s.mem a b v
@[simp] theorem State.read_write_self : (s.write a v).read a = v := by simp [State.read_write]
@[simp] theorem State.read_write_ne {s : State} {a b v : Word} (h : b ≠ a) : (s.write a v).read b = s.read b := by
  simp [State.read_write, h]

/-! ## The shared operations -/

@[simp] theorem State.reg_setResult_self : (s.setResult r v).reg r = v := by simp [State.setResult]
@[simp] theorem State.reg_setResult_ne {s : State} {r q : Reg} {v : Word} (h : q ≠ r) :
    (s.setResult r v).reg q = s.reg q := by simp [State.setResult, h]
@[simp] theorem State.pc_setResult : (s.setResult r v).pc = s.pc := rfl
@[simp] theorem State.flags_setResult : (s.setResult r v).flags = setcc v := rfl
@[simp] theorem State.priv_setResult : (s.setResult r v).priv = s.priv := rfl
@[simp] theorem State.mem_setResult : (s.setResult r v).mem = s.mem := rfl
@[simp] theorem State.read_setResult : (s.setResult r v).read a = s.read a := rfl

@[simp] theorem State.reg_jumpLinking_link : (s.jumpLinking v).reg 7 = s.pc := by simp [State.jumpLinking]
@[simp] theorem State.reg_jumpLinking_ne {s : State} {q : Reg} {v : Word} (h : q ≠ 7) :
    (s.jumpLinking v).reg q = s.reg q := by simp [State.jumpLinking, h]
@[simp] theorem State.pc_jumpLinking : (s.jumpLinking v).pc = v := rfl
@[simp] theorem State.flags_jumpLinking : (s.jumpLinking v).flags = s.flags := rfl
@[simp] theorem State.priv_jumpLinking : (s.jumpLinking v).priv = s.priv := rfl
@[simp] theorem State.mem_jumpLinking : (s.jumpLinking v).mem = s.mem := rfl
@[simp] theorem State.read_jumpLinking : (s.jumpLinking v).read a = s.read a := rfl

/-- The entry to a handler is a linking jump and nothing more (R209). -/
@[simp] theorem State.enterHandler_eq : s.enterHandler v = s.jumpLinking v := rfl

@[simp] theorem State.reg_returnFromFrame_sp : s.returnFromFrame.reg 6 = s.reg 6 + 2#16 := by
  simp [State.returnFromFrame]
@[simp] theorem State.reg_returnFromFrame_ne {s : State} {q : Reg} (h : q ≠ 6) :
    s.returnFromFrame.reg q = s.reg q := by simp [State.returnFromFrame, h]
@[simp] theorem State.pc_returnFromFrame : s.returnFromFrame.pc = s.read (s.reg 6) := rfl
@[simp] theorem State.flags_returnFromFrame :
    s.returnFromFrame.flags = flagsOfFlagWord (s.read (s.reg 6 + 1#16)) := rfl
@[simp] theorem State.priv_returnFromFrame :
    s.returnFromFrame.priv = privOfFlagWord (s.read (s.reg 6 + 1#16)) := rfl
@[simp] theorem State.mem_returnFromFrame : s.returnFromFrame.mem = s.mem := rfl
@[simp] theorem State.read_returnFromFrame : s.returnFromFrame.read a = s.read a := rfl

@[simp] theorem State.reg_advance : s.advance.reg q = s.reg q := rfl
@[simp] theorem State.pc_advance : s.advance.pc = s.pc + 1#16 := rfl
@[simp] theorem State.flags_advance : s.advance.flags = s.flags := rfl
@[simp] theorem State.priv_advance : s.advance.priv = s.priv := rfl
@[simp] theorem State.mem_advance : s.advance.mem = s.mem := rfl
@[simp] theorem State.read_advance : s.advance.read a = s.read a := rfl

/-- After the caller's advance, the address a fault records is the address fetched from (R201, R202). -/
@[simp] theorem State.instrAddr_advance : s.advance.instrAddr = s.pc := by
  simp [State.instrAddr]

/-- The reset state's memory is in its canonical form. -/
theorem State.reset_mem_wf : State.reset.mem.wf := Memory.wf_nil

/-- Two states with equal fields read through their accessors are equal. -/
theorem State.ext_reads {s t : State} (hr : ∀ q, s.reg q = t.reg q) (hp : s.pc = t.pc) (hf : s.flags = t.flags)
    (hm : s.priv = t.priv) (hmem : s.mem = t.mem) : s = t := by
  obtain ⟨sr, sp, sf, sm, smem⟩ := s
  obtain ⟨tr, tp, tf, tm, tmem⟩ := t
  have : sr = tr := Vector.ext fun i hi => hr ⟨i, hi⟩
  simp_all

end Sys2Proof.Machine
end

