-- ==== Sys2Proof/Laws/Step.lean ====
section
/-! SUPPORT. What one instruction and one step can do, said once: the equation of exec for each constructor, and the
inversions of exec, invoke and step that later proofs cite instead of unfolding them. -/

namespace Sys2Proof.Machine

section
variable (dr sr sr1 sr2 baseR : Reg) (imm5 : BitVec 5) (off6 : BitVec 6) (off9 : BitVec 9) (off11 : BitVec 11)
  (nzp : BitVec 3) (vect8 : BitVec 8) (s : State)

@[simp] theorem exec_addReg : exec (.addReg dr sr1 sr2) s = .next (s.setResult dr (s.reg sr1 + s.reg sr2)) := rfl
@[simp] theorem exec_addImm : exec (.addImm dr sr1 imm5) s = .next (s.setResult dr (s.reg sr1 + sext imm5)) := rfl
@[simp] theorem exec_andReg : exec (.andReg dr sr1 sr2) s = .next (s.setResult dr (s.reg sr1 &&& s.reg sr2)) := rfl
@[simp] theorem exec_andImm : exec (.andImm dr sr1 imm5) s = .next (s.setResult dr (s.reg sr1 &&& sext imm5)) := rfl
@[simp] theorem exec_not : exec (.not dr sr) s = .next (s.setResult dr (~~~ s.reg sr)) := rfl
@[simp] theorem exec_br :
    exec (.br nzp off9) s = .next (if branchTaken nzp s.flags then s.setPc (s.pcRelative off9) else s) := rfl
@[simp] theorem exec_ret : exec .ret s = .next (s.setPc (s.reg 7)) := rfl
@[simp] theorem exec_jmp : exec (.jmp baseR) s = .next (s.setPc (s.reg baseR)) := rfl
@[simp] theorem exec_jsr : exec (.jsr off11) s = .next (s.jumpLinking (s.pcRelative off11)) := rfl
@[simp] theorem exec_jsrr : exec (.jsrr baseR) s = .next (s.jumpLinking (s.reg baseR)) := rfl
@[simp] theorem exec_ld : exec (.ld dr off9) s = .next (s.setResult dr (s.read (s.pcRelative off9))) := rfl
@[simp] theorem exec_ldi : exec (.ldi dr off9) s = .next (s.setResult dr (s.read (s.indirect off9))) := rfl
@[simp] theorem exec_ldr :
    exec (.ldr dr baseR off6) s = .next (s.setResult dr (s.read (s.baseOffset baseR off6))) := rfl
@[simp] theorem exec_lea : exec (.lea dr off9) s = .next (s.setResult dr (s.pcRelative off9)) := rfl
@[simp] theorem exec_st : exec (.st sr off9) s = .next (s.write (s.pcRelative off9) (s.reg sr)) := rfl
@[simp] theorem exec_sti : exec (.sti sr off9) s = .next (s.write (s.indirect off9) (s.reg sr)) := rfl
@[simp] theorem exec_str : exec (.str sr baseR off6) s = .next (s.write (s.baseOffset baseR off6) (s.reg sr)) := rfl
@[simp] theorem exec_trap :
    exec (.trap vect8) s = .next (s.jumpLinking (s.read (trapEntryAddr vect8))) := rfl
theorem exec_rti :
    exec .rti s = if s.priv then .next s.returnFromFrame else .fault (.privilegeViolation s.instrAddr) := rfl
end

/-- The shapes of a next state: a result, a jump, nothing, a linking jump, a store, or the return through a frame.
Invariants about pc, mode and memory need only these six cases. -/
theorem exec_next_cases {i : Instr} {s t : State} (h : exec i s = .next t) :
    (∃ dr v, t = s.setResult dr v) ∨ (∃ v, t = s.setPc v) ∨ t = s ∨ (∃ v, t = s.jumpLinking v) ∨
    (∃ a v, t = s.write a v) ∨ (i = .rti ∧ s.priv = true ∧ t = s.returnFromFrame) := by
  cases i with
  | br nzp off9 =>
    rw [exec_br, Host.Outcome.next.injEq] at h
    by_cases hb : branchTaken nzp s.flags = true
    · exact .inr (.inl ⟨_, by rw [← h, if_pos hb]⟩)
    · exact .inr (.inr (.inl (by rw [← h, if_neg hb])))
  | rti =>
    rw [exec_rti] at h
    by_cases hp : s.priv = true
    · rw [if_pos hp, Host.Outcome.next.injEq] at h
      exact .inr (.inr (.inr (.inr (.inr ⟨rfl, hp, h.symm⟩))))
    · rw [if_neg hp] at h
      exact absurd h (by simp)
  | addReg | addImm | andReg | andImm | not | ld | ldi | ldr | lea =>
    exact .inl ⟨_, _, (Host.Outcome.next.inj h).symm⟩
  | ret | jmp => exact .inr (.inl ⟨_, (Host.Outcome.next.inj h).symm⟩)
  | jsr | jsrr | trap => exact .inr (.inr (.inr (.inl ⟨_, (Host.Outcome.next.inj h).symm⟩)))
  | st | sti | str => exact .inr (.inr (.inr (.inr (.inl ⟨_, _, (Host.Outcome.next.inj h).symm⟩))))

/-- A step that answers a next state ran the instruction the fetched word decodes to. -/
theorem step_next_inv {s t : State} (h : step s = .next t) :
    ∃ i, decode s.fetchWord = .ok i ∧ exec i s.advance = .next t := by
  unfold step invoke at h
  split at h
  · next i hi => exact ⟨i, hi, h⟩
  · exact absurd h (by simp [raise])

end Sys2Proof.Machine
end

