-- ==== Sys2Proof/Tests/Slice0.lean ====
section
/-! SUPPORT. The model's own tests: expected values are the spec's (spec/95_test_vectors.md, the vector named in each
comment, or the bit pattern of spec/30_encoding.md R60), never the model's answer. After them, a witness for every
obligation that has hypotheses. -/

namespace Sys2Proof.Tests

open Sys2Proof.Machine

/-! ## Helpers -/

/-- The next state of an outcome, if it is one. -/
def nextOf (o : Host.Outcome State Fault Refusal) : Option State :=
  match o with
  | .next s => some s
  | .fault _ | .refused _ => none

/-- The fault of an outcome, if it is one. -/
def faultOf (o : Host.Outcome State Fault Refusal) : Option Fault :=
  match o with
  | .fault f => some f
  | .next _ | .refused _ => none

/-- The instruction of a decoding, if there is one. -/
def decoded (w : Word) : Option Instr :=
  match decode w with
  | .ok i => some i
  | .error _ => none

/-- A state at entry to the core: the word was fetched from x3000 (95, conventions), Z set, unprivileged. -/
def entry (regs : List (Reg × Word)) (image : List (Word × Word)) : State :=
  regs.foldl (fun s c => s.setReg c.1 c.2)
    { regs := Vector.replicate 8 0x5A5A#16, pc := 0x3001#16, flags := ⟨false, true, false⟩, priv := false,
      mem := Memory.load [] image }

/-- A register and the flags after a word is invoked on a state. -/
def regAfter (w : Word) (s : State) (r : Reg) : Option (Word × Flags) :=
  (nextOf (invoke w s)).map fun t => (t.reg r, t.flags)

/-- The pc and a register after a word is invoked on a state. -/
def pcAfter (w : Word) (s : State) (r : Reg) : Option (Word × Word) :=
  (nextOf (invoke w s)).map fun t => (t.pc, t.reg r)

/-- A location and the flags after a word is invoked on a state. -/
def memAfter (w : Word) (s : State) (a : Word) : Option (Word × Flags) :=
  (nextOf (invoke w s)).map fun t => (t.read a, t.flags)

/-! ## Well-formedness: the one check, and a term it refuses -/

theorem test_wellFormed_refuses_jmp_r7 : Instr.wellFormed (.jmp 7) = false := by decide
theorem test_wellFormed_accepts_jmp_r6 : Instr.wellFormed (.jmp 6) = true := by decide

/-! ## Decoding: every constructor's word written out field by field from the pattern of R60 -/

-- V5, V6
theorem test_decode_addReg : decoded 0b0001_001_010_000_011#16 = some (.addReg 1 2 3) := by decide
theorem test_decode_addImm : decoded 0b0001_001_001_1_11111#16 = some (.addImm 1 1 0b11111#5) := by decide
-- V14, V16
theorem test_decode_andReg : decoded 0b0101_100_101_000_110#16 = some (.andReg 4 5 6) := by decide
theorem test_decode_andImm : decoded 0b0101_011_011_1_10000#16 = some (.andImm 3 3 0b10000#5) := by decide
-- V18
theorem test_decode_not : decoded 0b1001_010_011_111111#16 = some (.not 2 3) := by decide
-- V3
theorem test_decode_br : decoded 0b0000_111_111111111#16 = some (.br 0b111#3 0b111111111#9) := by decide
-- V23, V24
theorem test_decode_ret : decoded 0b1100_000_111_000000#16 = some .ret := by decide
theorem test_decode_jmp : decoded 0b1100_000_011_000000#16 = some (.jmp 3) := by decide
-- V32, V35
theorem test_decode_jsr : decoded 0b0100_1_10000000000#16 = some (.jsr 0b10000000000#11) := by decide
theorem test_decode_jsrr : decoded 0b0100_0_00_111_000000#16 = some (.jsrr 7) := by decide
-- V40, V42, V43, V46
theorem test_decode_ld : decoded 0b0010_100_000000100#16 = some (.ld 4 0b000000100#9) := by decide
theorem test_decode_ldi : decoded 0b1010_001_000000010#16 = some (.ldi 1 0b000000010#9) := by decide
theorem test_decode_ldr : decoded 0b0110_010_011_111110#16 = some (.ldr 2 3 0b111110#6) := by decide
theorem test_decode_lea : decoded 0b1110_101_011111111#16 = some (.lea 5 0b011111111#9) := by decide
-- V47, V48, V50
theorem test_decode_st : decoded 0b0011_011_000010000#16 = some (.st 3 0b000010000#9) := by decide
theorem test_decode_sti : decoded 0b1011_010_111111110#16 = some (.sti 2 0b111111110#9) := by decide
theorem test_decode_str : decoded 0b0111_100_101_011111#16 = some (.str 4 5 0b011111#6) := by decide
-- V51, V57
theorem test_decode_trap : decoded 0b1111_0000_00100101#16 = some (.trap 0b00100101#8) := by decide
theorem test_decode_rti : decoded 0b1000_000000000000#16 = some .rti := by decide

-- V9, V19, V28, V38, V54, V58, V61: one illegal word per row of R64's table
theorem test_decode_rejects : [0x1018#16, 0x903E#16, 0xC1E0#16, 0x4400#16, 0xF100#16, 0x8001#16, 0xD000#16].map decoded =
    List.replicate 7 none := by decide

-- the host's two entry points: the table's numbering, and the fetch
theorem test_decodeTableWord : decodeTableWord 16 0xF025 = some (.trap 0x25#8) := by decide
theorem test_withFetchWord : (nextOf (step (State.reset.withFetchWord 16 0x127F))).map
    (fun t => (t.reg 1, t.pc, t.flags)) = some (0xFFFF#16, 0x3001#16, ⟨true, false, false⟩) := by decide

/-! ## One instruction each -/

-- A3: signed overflow wraps; A7: all three fields one register
theorem test_add_overflow : regAfter 0x1283#16 (entry [(2, 0x7FFF#16), (3, 0x0001#16)] []) 1 =
    some (0x8000#16, ⟨true, false, false⟩) := by decide
theorem test_add_same_register : regAfter 0x1482#16 (entry [(2, 0x4000#16)] []) 2 =
    some (0x8000#16, ⟨true, false, false⟩) := by decide
-- A6, A9: the immediate's sign and its maximum
theorem test_add_minus_one : regAfter 0x127F#16 (entry [(1, 0x0001#16)] []) 1 =
    some (0x0000#16, ⟨false, true, false⟩) := by decide
theorem test_add_imm_max : regAfter 0x1FEF#16 (entry [(7, 0xFFF1#16)] []) 7 =
    some (0x0000#16, ⟨false, true, false⟩) := by decide
-- A11
theorem test_and : regAfter 0x5946#16 (entry [(5, 0xF0F0#16), (6, 0x3C3C#16)] []) 4 =
    some (0x3030#16, ⟨false, false, true⟩) := by decide
-- A12, A14: extension before the AND, both signs
theorem test_and_negative_imm : regAfter 0x56F0#16 (entry [(3, 0xABCD#16)] []) 3 =
    some (0xABC0#16, ⟨true, false, false⟩) := by decide
theorem test_and_positive_imm : regAfter 0x52AF#16 (entry [(2, 0xFFFF#16)] []) 1 =
    some (0x000F#16, ⟨false, false, true⟩) := by decide
-- A18
theorem test_not : regAfter 0x903F#16 (entry [(0, 0x8000#16)] []) 0 =
    some (0x7FFF#16, ⟨false, false, true⟩) := by decide
-- CT2, CT3: taken on Z alone; CT11 wraps below zero
theorem test_br_taken : (nextOf (invoke 0x0403#16 (entry [] []))).map State.pc = some 0x3004#16 := by decide
theorem test_br_not_taken : (nextOf (invoke 0x0403#16 ((entry [] []).setFlags ⟨false, false, true⟩))).map State.pc =
    some 0x3001#16 := by decide
-- CT12, CT14
theorem test_ret : pcAfter 0xC1C0#16 (entry [(7, 0x3010#16)] []) 7 = some (0x3010#16, 0x3010#16) := by decide
theorem test_jmp : pcAfter 0xC0C0#16 (entry [(3, 0x4000#16), (7, 0x1111#16)] []) 7 = some (0x4000#16, 0x1111#16) := by
  decide
-- CT17, CT19: the minimum, and the maximum wrapping
theorem test_jsr_min : pcAfter 0x4C00#16 (entry [] []) 7 = some (0x2C01#16, 0x3001#16) := by decide
theorem test_jsr_wraps : pcAfter 0x4BFF#16 ((entry [] []).setPc 0xFE00#16) 7 = some (0x01FF#16, 0xFE00#16) := by decide
-- CT20, CT21: the entry value of R7 is the target
theorem test_jsrr : pcAfter 0x4080#16 (entry [(2, 0x5000#16)] []) 7 = some (0x5000#16, 0x3001#16) := by decide
theorem test_jsrr_r7 : pcAfter 0x41C0#16 (entry [(7, 0x5000#16)] []) 7 = some (0x5000#16, 0x3001#16) := by decide
-- L1, L4
theorem test_ld : regAfter 0x2804#16 (entry [] [(0x3005#16, 0x8000#16)]) 4 =
    some (0x8000#16, ⟨true, false, false⟩) := by decide
theorem test_ld_wraps : regAfter 0x22FF#16 ((entry [] [(0x00FE#16, 0x1234#16)]).setPc 0xFFFF#16) 1 =
    some (0x1234#16, ⟨false, false, true⟩) := by decide
-- L5
theorem test_ldi : regAfter 0xA202#16 (entry [] [(0x3003#16, 0x4000#16), (0x4000#16, 0xFFFF#16)]) 1 =
    some (0xFFFF#16, ⟨true, false, false⟩) := by decide
-- L8: base and destination the same; L10: minimum offset wrapping
theorem test_ldr_same_register : regAfter 0x6240#16 (entry [(1, 0x4000#16)] [(0x4000#16, 0x0000#16)]) 1 =
    some (0x0000#16, ⟨false, true, false⟩) := by decide
theorem test_ldr_min_wraps : regAfter 0x6060#16 (entry [(1, 0x0010#16)] [(0xFFF0#16, 0x8001#16)]) 0 =
    some (0x8001#16, ⟨true, false, false⟩) := by decide
-- L12: LEA sets N from an address of x8000
theorem test_lea_sets_n : regAfter 0xEAFF#16 ((entry [] []).setPc 0x7F01#16) 5 =
    some (0x8000#16, ⟨true, false, false⟩) := by decide
-- T1, T3
theorem test_st : memAfter 0x3610#16 (entry [(3, 0xABCD#16)] []) 0x3011#16 =
    some (0xABCD#16, ⟨false, true, false⟩) := by decide
theorem test_st_seen_by_fetch : (nextOf (invoke 0x3000#16 (entry [(0, 0xC1C0#16)] []))).map State.fetchWord =
    some 0xC1C0#16 := by decide
-- T4, T5: through the pointer, and the pointer to itself
theorem test_sti : memAfter 0xB5FE#16 (entry [(2, 0x0042#16)] [(0x2FFF#16, 0x5000#16)]) 0x5000#16 =
    some (0x0042#16, ⟨false, true, false⟩) := by decide
theorem test_sti_self : memAfter 0xB401#16 (entry [(2, 0x7777#16)] [(0x3002#16, 0x3002#16)]) 0x3002#16 =
    some (0x7777#16, ⟨false, true, false⟩) := by decide
-- T6, T7
theorem test_str : memAfter 0x7FBF#16 (entry [(7, 0x3005#16), (6, 0x3000#16)] []) 0x2FFF#16 =
    some (0x3005#16, ⟨false, true, false⟩) := by decide
theorem test_str_wraps : memAfter 0x795F#16 (entry [(4, 0x0001#16), (5, 0xFFF0#16)] []) 0x000F#16 =
    some (0x0001#16, ⟨false, true, false⟩) := by decide
-- Y1, Y2
theorem test_trap : pcAfter 0xF025#16 (entry [] [(0x0025#16, 0x0520#16)]) 7 = some (0x0520#16, 0x3001#16) := by decide
theorem test_trap_zero_extends : pcAfter 0xF0FF#16 (entry [] [(0x00FF#16, 0xFFFF#16)]) 7 =
    some (0xFFFF#16, 0x3001#16) := by decide
-- Y6: the stack wraps and the flags are loaded verbatim; Y8: unprivileged
theorem test_rti_wraps : (nextOf (invoke 0x8000#16 ((entry [(6, 0xFFFF#16)] [(0xFFFF#16, 0x1234#16), (0x0000#16, 0xFFFF#16)]).setPriv true))).map
    (fun t => (t.pc, t.reg 6, t.priv, t.flags)) = some (0x1234#16, 0x0001#16, false, ⟨true, true, true⟩) := by decide
theorem test_rti_unprivileged : faultOf (invoke 0x8000#16 (entry [(6, 0x2FFE#16)] [])) =
    some (.privilegeViolation 0x3000#16) := by decide
-- F5, F6: the same word is illegal in both modes
theorem test_illegal_in_both_modes : [true, false].map (fun b => faultOf (invoke 0x8001#16 ((entry [] []).setPriv b))) =
    List.replicate 2 (some (.illegalOpcode 0x8001#16 0x3000#16)) := by decide

/-! ## The assembler (95, 2.8) -/

/-- A context for tests: three literals, one label at x3005, the line at x3000. -/
def asmContext : AsmContext where
  parseLiteral t := [("-16", (-16 : Int)), ("-17", -17), ("7", 7)].lookup t
  labelTable t := [("LOOP", 0x3005#16)].lookup t
  address := 0x3000#16

/-- Tokens of given texts on source line 1, each at column 0: no test of the encoder needs their places. -/
def tok (text : String) : Token := ⟨text, 1, 0⟩

/-- The template and word of a line that assembles. -/
def assembled (mnemonic : String) (tokens : List String) : Option (Variant × Word) :=
  (assembleLine asmContext (tok mnemonic) (tokens.map tok)).toOption

/-- The diagnostic of a line that does not. -/
def diagnosed (mnemonic : String) (tokens : List String) : Option DiagnosticKind :=
  match assembleLine asmContext (tok mnemonic) (tokens.map tok) with
  | .ok _ => none
  | .error d => some d

-- S4, E3
theorem test_assemble_imm_min : assembled "add" ["R0", "R0", "-16"] = some (.addImm, 0x1030#16) := by decide
theorem test_assemble_imm_too_low : diagnosed "add" ["R0", "R0", "-17"] = some .operandTypeMismatch := by decide
-- S5 / E4, E8, E13
theorem test_assemble_label : assembled "ld" ["R4", "LOOP"] = some (.ld, 0x2804#16) := by decide
theorem test_assemble_jmp_r7 : assembled "jmp" ["R7"] = some (.jmp, 0xC1C0#16) := by decide
theorem test_assemble_arity : diagnosed "not" ["R1"] = some .arityMismatch := by decide
-- R76
theorem test_assemble_alias : (assembleWithAliases asmContext (tok "brz") [tok "LOOP"]).toOption = some (.br, 0x0404#16) := by decide

/-- A file of three lines for tests; the second has too few operands (E13), the others are S4 and E4. -/
def sourceFile : SourceFile where
  filename := "a.asm"
  parseLiteral := asmContext.parseLiteral
  labelTable := asmContext.labelTable
  formatMessage _ l := "bad line " ++ toString l.mnemonic.sourceLine ++ ": " ++ l.text

def sourceLines : List Line :=
  [⟨"add R0, R0, -16", 0x2FFF#16, ⟨"add", 1, 0⟩, [⟨"R0", 1, 4⟩, ⟨"R0", 1, 8⟩, ⟨"-16", 1, 12⟩]⟩,
   ⟨"not R1", 0x3000#16, ⟨"not", 2, 0⟩, [⟨"R1", 2, 4⟩]⟩,
   ⟨"ld R4, LOOP", 0x3000#16, ⟨"ld", 3, 0⟩, [⟨"R4", 3, 3⟩, ⟨"LOOP", 3, 7⟩]⟩]

-- R74: the bad line gives its one record, and the line after it still gives its word
theorem test_assemble_recovers_at_next_line :
    (assembleLines sourceFile sourceLines).map Except.toOption =
      [some (.addImm, 0x1030#16), none, some (.ld, 0x2804#16)] := by decide
theorem test_assemble_record : diagnostics sourceFile sourceLines =
    [⟨.fatalForLine, .arityMismatch, "a.asm", "not R1", "bad line 2: not R1"⟩] := by decide

/-! ## Witnesses: for every obligation with hypotheses, concrete inputs that meet them, one per clause -/

/-- A privileged state whose R6 points at a frame in the last and the first location (Y6). -/
def frameState : State :=
  (entry [(6, 0xFFFF#16)] [(0xFFFF#16, 0x1234#16), (0x0000#16, 0x8003#16)]).setPriv true

/-- The unused bits of R64's rows that these statements range over, at the ends of their ranges (V9, V19, V28). -/
theorem witness_AddRegisterWritesWrappedSum : (0b01#2 ≠ 0#2 ∧ 0b11#2 ≠ 0#2) ∧ decoded 0x1018#16 = none := by decide

theorem witness_AndRegisterWritesBitwiseAnd : (0b01#2 ≠ 0#2 ∧ 0b11#2 ≠ 0#2) ∧ decoded 0x5008#16 = none := by decide

theorem witness_NotWritesComplement :
    (0b111110#6 ≠ 0b111111#6 ∧ 0#6 ≠ 0b111111#6) ∧ decoded 0x903E#16 = none := by decide

theorem witness_JmpJumpsThroughBase :
    ((0b001#3 ≠ 0#3 ∨ 0#6 ≠ 0#6) ∧ (0#3 ≠ 0#3 ∨ 0b100000#6 ≠ 0#6)) ∧ decoded 0xC1E0#16 = none := by decide

/-- Each of the three ways to branch, and a mask and flags under which none holds (Z alone set). -/
theorem witness_BranchGoesWhereSelectedFlagSays :
    (0b100#3 : BitVec 3).getLsbD 2 = true ∧ (0b010#3 : BitVec 3).getLsbD 1 = true ∧
    (0b001#3 : BitVec 3).getLsbD 0 = true ∧ (entry [] []).flags.z = true ∧
    ((entry [] []).setFlags ⟨true, false, true⟩).flags.n = true ∧
    ((entry [] []).setFlags ⟨true, false, true⟩).flags.p = true ∧ branchTaken 0b101#3 (entry [] []).flags = false := by
  decide

theorem witness_RtiReturnsThroughFrameOrFaults :
    frameState.priv = true ∧ (entry [] []).priv = false := by decide

theorem witness_SetccGroupFlagsFollowValueWritten :
    Instr.variant (.lea 0 0#9) ∈ [Variant.addReg, .addImm, .andReg, .andImm, .not, .ld, .ldi, .ldr, .lea] ∧
    Instr.variant (.trap 0#8) ∈ [Variant.br, .ret, .jmp, .jsr, .jsrr, .st, .sti, .str, .trap] := by decide

theorem witness_FlagsWrittenAndReadPerTable :
    (∃ t, exec (.st 0 0#9) (entry [] []) = .next t) ∧ writesFlags (Instr.variant (.st 0 0#9)) = false ∧
    (∃ t, exec (.lea 0 0#9) (entry [] []) = .next t) ∧ writesFlags (Instr.variant (.lea 0 0#9)) = true ∧
    (Instr.lea 0 0#9) ≠ .rti ∧ Instr.variant (.lea 0 0#9) ≠ .br :=
  ⟨⟨_, rfl⟩, rfl, ⟨_, rfl⟩, rfl, by decide, by decide⟩

/-- The word x8000 at the pc, privileged, with a popped flag word whose low bits are 011. -/
def rtiStep : State := (frameState.setPc 0x3000#16).write 0x3000#16 0x8000#16

/-- Its step's outcome is the third way of the statement, and the empty machine's step the second. -/
theorem witness_FlagsOneHotFailsInTwoWaysOnly :
    (nextOf (step rtiStep)).map (fun t => t.flags.oneHot) = some false ∧
    (nextOf (step State.reset)).map (fun t => t.flags.oneHot) = some false := by decide

theorem witness_RegistersReadAndWrittenPerTable :
    (∃ t, exec (.jsrr 2) (entry [(2, 0x5000#16)] []) = .next t) ∧ regWritten (.jsrr 2) ≠ some 3 ∧
    (∀ r ∈ regsRead (.jsrr 2), (entry [(2, 0x5000#16), (4, 0x0001#16)] []).reg r = (entry [(2, 0x5000#16)] []).reg r) ∧
    (entry [(2, 0x5000#16), (4, 0x0001#16)] []).mem = (entry [(2, 0x5000#16)] []).mem ∧
    exec .rti (entry [] []) = .fault (.privilegeViolation 0x3000#16) :=
  ⟨⟨_, rfl⟩, by decide, by decide, rfl, rfl⟩

/-- Each clause with the pc at the top of memory: a NOT, a branch not taken, a branch taken, a JSR. -/
theorem witness_PcWrittenPerTable :
    [0x903F#16, 0x01FF#16, 0x0E00#16, 0x4800#16].map (fun w =>
      (nextOf (step ((((entry [] []).setPc 0xFFFF#16).write 0xFFFF#16 w)))).map State.pc) =
    List.replicate 4 (some 0x0000#16) := by decide

theorem witness_AccessTableAccountsForMemory :
    (∃ t, exec (.ldi 1 2#9) (entry [] [(0x3003#16, 0x4000#16)]) = .next t) ∧
    (∃ f, exec .rti (entry [] []) = .fault f) ∧
    (accesses (.ldi 1 2#9) (entry [] [(0x3003#16, 0x4000#16)]) =
      [.read 0x3003#16 0x4000#16, .read 0x4000#16 0x0000#16] ∧
    Memory.read (Memory.load [] [(0x3003#16, 0x4000#16), (0x5000#16, 0x0001#16)]) 0x3003#16 = 0x4000#16 ∧
    Memory.read (Memory.load [] [(0x3003#16, 0x4000#16), (0x5000#16, 0x0001#16)]) 0x4000#16 = 0x0000#16) :=
  ⟨⟨_, rfl⟩, ⟨_, rfl⟩, by decide⟩

theorem witness_ModeGatesRtiOnly : (Instr.trap 0#8) ≠ .rti := by decide

theorem witness_PrivilegeNeverRises :
    (entry [] []).priv = false ∧ ∃ t, Host.Core.run core 2 (entry [] []) = .next t :=
  ⟨rfl, _, rfl⟩

theorem witness_UserInvariantKeptByStep :
    (entry [] [(0x3001#16, 0x903F#16)]).UserInv ∧ ∃ t, step (entry [] [(0x3001#16, 0x903F#16)]) = .next t :=
  ⟨by decide, _, rfl⟩

theorem witness_CanonicalMemoryKeptByStep :
    (entry [] [(0x3001#16, 0x3000#16)]).Inv ∧ ∃ t, step (entry [] [(0x3001#16, 0x3000#16)]) = .next t :=
  ⟨by decide, _, rfl⟩

theorem witness_CanonicalMemoryAtReset :
    ResetParams.chosen.mem.wf ∧ Memory.load ResetParams.chosen.mem [(0xFFFF#16, 0x0001#16)] = [(0xFFFF, 0x0001#16)] := by
  decide

theorem witness_CanonicalMemoriesThatReadAlikeAreEqual :
    ∃ m m' : Memory, m.wf ∧ m'.wf ∧ m ≠ [] ∧ ∀ a, Memory.read m a = Memory.read m' a :=
  ⟨[(5, 0x0001#16)], Memory.load [] [(0x0005#16, 0x0002#16), (0x0005#16, 0x0001#16)], by decide, by decide, by decide,
    fun _ => rfl⟩

theorem witness_AddressingModesAreWrappedSums : 16 ≤ 16 ∧ (State.reset.pcRelative 0xCFFF#16).toNat = 0xFFFF := by decide

theorem witness_StepRunsDecodedInstruction :
    decoded ((entry [] [(0x3001#16, 0x5020#16)]).read 0x3001#16) = some (.andImm 0 0 0#5) := by decide

theorem witness_IllegalOpcodeOnTableWordsOnly :
    illegalByTable ((entry [] [(0x3001#16, 0xD000#16)]).read 0x3001#16) = true ∧
    step (entry [] [(0x3001#16, 0xD000#16)]) = .fault (.illegalOpcode 0xD000#16 0x3001#16) :=
  ⟨by decide, rfl⟩

theorem witness_OnlyTwoFaultsAndWhen :
    ((Instr.ret ≠ .rti ∨ (entry [] []).priv = true) ∧ (Instr.rti ≠ .rti ∨ frameState.priv = true)) ∧
    step (entry [] [(0x3001#16, 0x8000#16)]) = .fault (.privilegeViolation 0x3001#16) :=
  ⟨by decide, rfl⟩

theorem witness_RunStopsAtFirstFault :
    step (entry [] [(0x3001#16, 0xD000#16)]) = .fault (.illegalOpcode 0xD000#16 0x3001#16) ∧
    (∃ f u, runUntil (fun _ => false) 1 (entry [] [(0x3001#16, 0xD000#16)]) = .faulted f u) ∧
    (∃ u, runUntil (fun s => s.pc == 0x3002#16) 1 (entry [] []) = .ended u) :=
  ⟨rfl, ⟨_, _, rfl⟩, ⟨_, rfl⟩⟩

theorem witness_RunEndsByPredicateOrFaultOnly :
    (∃ u, runUntil (fun s => s.pc == 0x3002#16) 1 (entry [] []) = .ended u) ∧
    (∃ u f, runUntil (fun _ => false) 1 (entry [] [(0x3001#16, 0xD000#16)]) = .faulted f u) ∧
    FaultFree 1 (entry [] []) :=
  ⟨⟨_, rfl⟩, ⟨_, _, rfl⟩, ⟨_, rfl⟩⟩

theorem witness_StoreSeenByNextFetch :
    Access.write 0x3001#16 0x5A5A#16 ∈ accesses (.st 0 0#9) (entry [] []) ∧
    (nextOf (exec (.st 0 0#9) (entry [] []))).map State.pc = some 0x3001#16 := by decide

theorem witness_LinkedTransferReturnsByRet :
    ∀ v ∈ [Instr.variant (.jsr 0#11), Instr.variant (.jsrr 7), Instr.variant (.trap 0#8)],
      v ∈ [Variant.jsr, .jsrr, .trap] := by decide

theorem witness_DecodeOfEncodeIsIdentity :
    Instr.wellFormed (.jmp 6) = true ∧ Instr.wellFormed (.jmp 7) = false := by decide

theorem witness_EncodeOfDecodeIsIdentity : decode 0xC1C0#16 = .ok .ret ∧ decode 0xC180#16 = .ok (.jmp 6) := ⟨rfl, rfl⟩

theorem witness_OnlyOneWordMatchesTwoTemplates :
    Variant.ret ≠ .jmp ∧ Variant.ret.matchesWord 0xC1C0#16 = true ∧ Variant.jmp.matchesWord 0xC1C0#16 = true := by decide

theorem witness_FieldWidthsSumToSixteen :
    registerField ∈ Variant.fields .addReg ∧ registerField.kind = .register := by decide

/-- The reversed catalog is a permutation under which xC1C0 is reported as JMP. -/
theorem witness_CatalogOrderChangesNoEffect :
    catalog.reverse.Perm catalog ∧ selectFrom catalog.reverse 0xC1C0#16 = some .jmp ∧
    selectTemplate 0xC1C0#16 = some .ret :=
  ⟨List.reverse_perm _, rfl, rfl⟩

theorem witness_WithoutBrOpcodeZeroIsIllegal :
    (0x0FFF#16 : Word).toNat < 0x1000 ∧ 0x1000 ≤ (0x1000#16 : Word).toNat := by decide

theorem witness_PlacedFieldsAreReadBack :
    List.Forall₂ (fun x (f : Field) => x < 2 ^ f.width) [7, 511] ((Variant.fields .ld).filter Field.isVariable) :=
  .cons (by decide) (.cons (by decide) .nil)

/-- Width 5, signed, -16 in range and -17 not (S4); unsigned, 7 in range and -16 not. -/
theorem witness_ImmediateEncodesExactlyItsRange :
    asmContext.parseLiteral "-16" = some (-16) ∧ asmContext.parseLiteral "-17" = some (-17) ∧
    asmContext.parseLiteral "7" = some 7 ∧ (1 ≤ 5 ∧ (-(2 ^ (5 - 1) : Int) ≤ -16 ∧ (-16 : Int) ≤ 2 ^ (5 - 1) - 1)) ∧
    ¬ (-(2 ^ (5 - 1) : Int) ≤ -17 ∧ (-17 : Int) ≤ 2 ^ (5 - 1) - 1) ∧
    (0 ≤ (7 : Int) ∧ (7 : Int) ≤ 2 ^ 5 - 1) ∧ ¬ (0 ≤ (-16 : Int) ∧ (-16 : Int) ≤ 2 ^ 5 - 1) := by decide

theorem witness_EncodedLabelReachesItsTarget :
    asmContext.labelTable "LOOP" = some 0x3005#16 ∧
    (encodeField asmContext ⟨.label, 9⟩ (tok "LOOP")).toOption = some 4 ∧
    (entry [] []).pc = asmContext.address + 1#16 := by decide

theorem witness_AssembledLineSelectsItsTemplate :
    assembled "jmp" ["R7"] = some (.jmp, 0xC1C0#16) ∧ assembled "ret" [] = some (.ret, 0xC1C0#16) := by decide

/-- A line that encodes, and one that does not, each between two others. -/
theorem witness_EachBadLineGivesOneDiagnostic :
    (assembleLine (sourceFile.context ⟨"ret", 0x3000#16, tok "ret", []⟩) (tok "ret") []).toOption = some (.ret, 0xC1C0#16) ∧
    (diagnostics sourceFile sourceLines).map Diagnostic.kind = [.arityMismatch] := by decide

theorem witness_TokenPositionsChangeNoEncoding :
    (⟨"not", 2, 0⟩ : Token).text = (tok "not").text ∧ (⟨"not", 2, 0⟩ : Token) ≠ tok "not" ∧
    [(⟨"R1", 2, 4⟩ : Token)].map Token.text = [tok "R1"].map Token.text := by decide

end Sys2Proof.Tests
end

section
/-! PROOF. The scope family (spec/00_scope.md R5): every template fixes bits 15 to 12 (R61), and BR is the only one that
fixes them to zero, so leaving BR out of the catalog changes the selection for the words below x1000 and for no other. -/

namespace Sys2Proof

/-! ## The opcode bits -/

/-- R61, R62. Bits 15 to 12 of every template are Fixed. -/
theorem Variant.opcodeBits_mask (v : Variant) : v.mask.extractLsb' 12 4 = BitVec.allOnes 4 := by
  cases v <;> decide

/-- R61. BR is the one template whose opcode is 0000. -/
theorem Variant.opcodeBits_matchBits_eq_zero_iff (v : Variant) : v.matchBits.extractLsb' 12 4 = 0#4 ↔ v = .br := by
  cases v <;> decide

/-- R91. A matching template fixes the word's opcode bits. -/
theorem Variant.opcodeBits_of_matchesWord {v : Variant} {w : Word} (h : v.matchesWord w = true) :
    w.extractLsb' 12 4 = v.matchBits.extractLsb' 12 4 := by
  have hmask : w &&& v.mask = v.matchBits := beq_iff_eq.1 h
  rw [← hmask, BitVec.extractLsb'_and, v.opcodeBits_mask, BitVec.and_allOnes]

/-- The words below x1000 are those whose opcode is 0000. -/
theorem opcodeBits_eq_zero_iff (w : Word) : w.extractLsb' 12 4 = 0#4 ↔ w.toNat < 0x1000 := by
  rw [← BitVec.toNat_inj, BitVec.extractLsb'_toNat, Nat.shiftRight_eq_div_pow, BitVec.toNat_ofNat]
  have := w.isLt
  omega

/-- A matching template is BR exactly where the word is below x1000. -/
theorem Variant.eq_br_iff_of_matchesWord {v : Variant} {w : Word} (h : v.matchesWord w = true) :
    v = .br ↔ w.toNat < 0x1000 := by
  rw [← v.opcodeBits_matchBits_eq_zero_iff, ← opcodeBits_eq_zero_iff, opcodeBits_of_matchesWord h]

/-! ## The catalog without BR -/

theorem br_notMem_catalogWith_false : Variant.br ∉ catalogWith false := by decide

/-- Where BR does not match, the scan passes over its place in the catalog. -/
theorem selectFrom_catalogWith_false_of_br_not_matchesWord {w : Word} (h : Variant.br.matchesWord w = false) :
    selectFrom (catalogWith false) w = selectFrom (catalogWith true) w := by
  simp [selectFrom, catalogWith, List.find?_append, h]

/-- Settles O49: below x1000 only BR can match, and from x1000 up BR does not match. -/
theorem withoutBrOpcodeZeroIsIllegal : Obligations.WithoutBrOpcodeZeroIsIllegal := by
  intro w
  refine ⟨fun hlow => ?_, fun hhigh => ?_⟩
  · refine List.find?_eq_none.2 fun v hv hmatch => ?_
    have hbr : v = .br := (Variant.eq_br_iff_of_matchesWord hmatch).2 hlow
    exact br_notMem_catalogWith_false (hbr ▸ hv)
  · have hbr : Variant.br.matchesWord w = false := by
      refine Bool.eq_false_iff.2 fun hmatch => ?_
      exact Nat.not_lt.2 hhigh ((Variant.eq_br_iff_of_matchesWord hmatch).1 rfl)
    exact selectFrom_catalogWith_false_of_br_not_matchesWord hbr

end Sys2Proof
end

section
/-! PROOF. The state family (spec/10_state.md R13, R16, R17, R19, R20, R26, R27): what an instruction's next state is,
tied to the tables of whole instructions, and from it the frame, dependence and invariant statements. -/

namespace Sys2Proof.Machine

/-! ## Sums modulo 2^16 -/

/-- R43. Adding an integer's sixteen bits is the wrapped sum with that integer. -/
theorem add_ofInt_eq_wrapSum (a : Word) (x : Int) : a + BitVec.ofInt 16 x = wrapSum a x := by
  rw [wrapSum, BitVec.ofInt_add, BitVec.ofInt_natCast, BitVec.ofNat_toNat, BitVec.setWidth_eq]

theorem toNat_wrapSum (a : Word) (x : Int) : ((wrapSum a x).toNat : Int) = ((a.toNat : Int) + x) % 2 ^ 16 := by
  rw [wrapSum, BitVec.toNat_ofInt, Int.toNat_of_nonneg (Int.emod_nonneg _ (by decide))]
  rfl

theorem wrapSum_wrapSum (a : Word) (x y : Int) : wrapSum (wrapSum a x) y = wrapSum a (x + y) := by
  rw [← add_ofInt_eq_wrapSum, ← add_ofInt_eq_wrapSum, ← add_ofInt_eq_wrapSum, BitVec.ofInt_add, BitVec.add_assoc]

theorem State.pcRelative_eq_wrapSum (s : State) {n : Nat} (off : BitVec n) :
    s.pcRelative off = wrapSum s.pc off.toInt :=
  add_ofInt_eq_wrapSum s.pc off.toInt

/-- R154 a, R17. The address after the caller's advance, counted from the address fetched from. -/
theorem State.toNat_pcRelative_advance (s : State) {n : Nat} (off : BitVec n) :
    ((s.advance.pcRelative off).toNat : Int) = ((s.pc.toNat : Int) + 1 + off.toInt) % 2 ^ 16 := by
  have hadv : s.advance.pc = wrapSum s.pc 1 := add_ofInt_eq_wrapSum s.pc 1
  rw [State.pcRelative_eq_wrapSum, hadv, wrapSum_wrapSum, toNat_wrapSum, Int.add_assoc]

/-- R17. The advance is modulo 2^16. -/
theorem State.toNat_pc_advance (s : State) : s.advance.pc.toNat = (s.pc.toNat + 1) % 2 ^ 16 :=
  BitVec.toNat_add s.pc 1#16

theorem State.advance_eq (s : State) : s.advance = { s with pc := BitVec.ofNat 16 (s.pc.toNat + 1) } := by
  have hpc : s.pc + 1#16 = BitVec.ofNat 16 (s.pc.toNat + 1) := BitVec.eq_of_toNat_eq (by simp)
  rw [State.advance, State.setPc, hpc]

/-! ## What is decoded and run -/

theorem variant_extract (v : Variant) (w : Word) : (extract v w).variant = v := by
  cases v <;> rfl

/-- R90 to R92. A word decodes only to an instruction of a template whose Fixed bits it holds. -/
theorem matchesWord_of_decode {w : Word} {i : Instr} (h : decode w = .ok i) : i.variant.matchesWord w = true := by
  unfold decode at h
  split at h
  · next v hv =>
    obtain rfl : extract v w = i := Except.ok.inj h
    rw [variant_extract]
    exact List.find?_some (p := fun u : Variant => u.matchesWord w) hv
  · cases h

/-- R60 #19: RTI has no variable field, so it has one word. -/
theorem eq_of_decode_rti {w : Word} (h : decode w = .ok .rti) : w = 0x8000#16 := by
  have hmask : w &&& BitVec.allOnes 16 = 0x8000#16 := beq_iff_eq.1 (matchesWord_of_decode h)
  rwa [BitVec.and_allOnes] at hmask

theorem invoke_of_decode {w : Word} {i : Instr} (h : decode w = .ok i) (s : State) : invoke w s = exec i s := by
  rw [invoke, h]

theorem step_of_decode {s : State} {i : Instr} (h : decode (s.read s.pc) = .ok i) : step s = exec i s.advance :=
  invoke_of_decode h s.advance

/-! ## The shape of a next state, with the tables of R13, R17 and R19 -/

/-- The next state `t` that an instruction answers from `s`, by the operation that makes it, and what the tables say of
an instruction that ends in that operation. -/
inductive NextShape (i : Instr) (s : State) : State → Prop where
  | result (dr : Reg) (v : Word) (hreg : regWritten i = some dr) (hflags : writesFlags i.variant = true)
      (hpc : writesPc i.variant = false) : NextShape i s (s.setResult dr v)
  | jump (v : Word) (hreg : regWritten i = none) (hflags : writesFlags i.variant = false)
      (hpc : writesPc i.variant = true) : NextShape i s (s.setPc v)
  | stay (hreg : regWritten i = none) (hflags : writesFlags i.variant = false) : NextShape i s s
  | link (v : Word) (hreg : regWritten i = some 7) (hflags : writesFlags i.variant = false)
      (hpc : writesPc i.variant = true) : NextShape i s (s.jumpLinking v)
  | store (a v : Word) (hreg : regWritten i = none) (hflags : writesFlags i.variant = false)
      (hpc : writesPc i.variant = false) : NextShape i s (s.write a v)
  | frame (hi : i = .rti) (hpriv : s.priv = true) : NextShape i s s.returnFromFrame

/-- Every next state has one of the shapes. -/
theorem exec_next_shape {i : Instr} {s t : State} (h : exec i s = .next t) : NextShape i s t := by
  cases i with
  | addReg | addImm | andReg | andImm | not | ld | ldi | ldr | lea =>
    obtain rfl := Host.Outcome.next.inj h
    exact .result _ _ rfl rfl rfl
  | br nzp off9 =>
    obtain rfl := Host.Outcome.next.inj h
    split
    · exact .jump _ rfl rfl rfl
    · exact .stay rfl rfl
  | ret | jmp =>
    obtain rfl := Host.Outcome.next.inj h
    exact .jump _ rfl rfl rfl
  | jsr | jsrr | trap =>
    obtain rfl := Host.Outcome.next.inj h
    exact .link _ rfl rfl rfl
  | st | sti | str =>
    obtain rfl := Host.Outcome.next.inj h
    exact .store _ _ rfl rfl rfl
  | rti =>
    rw [exec_rti] at h
    split at h
    · next hpriv =>
      obtain rfl := Host.Outcome.next.inj h
      exact .frame rfl hpriv
    · cases h

/-! ## The flags (R18, R19, R27) -/

/-- R110. `setcc` sets exactly one flag. -/
@[simp] theorem oneHot_setcc (v : Word) : (setcc v).oneHot = true := by
  by_cases hv : v = 0x0000#16
  · subst hv
    decide
  · cases hn : v.getLsbD 15 <;> simp [setcc, Flags.oneHot, hv, hn]

/-- R19. A variant outside the writers' list leaves the flags alone. -/
theorem flags_of_not_writesFlags {i : Instr} {s t : State} (hw : writesFlags i.variant = false)
    (h : exec i s = .next t) : t.flags = s.flags := by
  cases exec_next_shape h with
  | result dr v hreg hflags => rw [hw] at hflags; cases hflags
  | frame hi => subst hi; cases hw
  | jump | stay | link | store => rfl

/-- R19, R110. A writer other than RTI leaves `setcc` of the register it wrote. -/
theorem flags_of_writesFlags {i : Instr} {s t : State} (hw : writesFlags i.variant = true) (hi : i ≠ .rti)
    (h : exec i s = .next t) : ∃ dr, regWritten i = some dr ∧ t.flags = setcc (t.reg dr) := by
  cases exec_next_shape h with
  | result dr v hreg => exact ⟨dr, hreg, by simp⟩
  | frame hrti => exact absurd hrti hi
  | jump v _ hflags | stay _ hflags | link v _ hflags | store a v _ hflags => rw [hw] at hflags; cases hflags

/-- A writer of the flags overwrites whatever they were, and reads none of them. -/
theorem exec_setFlags_of_writesFlags {i : Instr} (hw : writesFlags i.variant = true) (s : State) (f : Flags) :
    exec i (s.setFlags f) = exec i s := by
  cases i with
  | addReg | addImm | andReg | andImm | not | ld | ldi | ldr | lea | rti => rfl
  | br | ret | jmp | jsr | jsrr | st | sti | str | trap => cases hw

/-- An instruction that neither writes the flags nor is BR carries them along. -/
theorem exec_setFlags_of_not_writesFlags {i : Instr} {s t : State} (hw : writesFlags i.variant = false)
    (hbr : i.variant ≠ .br) (h : exec i s = .next t) (f : Flags) :
    exec i (s.setFlags f) = .next (t.setFlags f) := by
  cases i with
  | addReg | addImm | andReg | andImm | not | ld | ldi | ldr | lea | rti => cases hw
  | br => exact absurd rfl hbr
  | ret | jmp | jsr | jsrr | st | sti | str | trap =>
    obtain rfl := Host.Outcome.next.inj h
    rfl

/-- Settles O21: the writers overwrite the flags, and the others but BR carry them along unread. -/
theorem flagsWrittenAndReadPerTable : Obligations.FlagsWrittenAndReadPerTable := by
  intro i s t h
  refine ⟨fun hw => flags_of_not_writesFlags hw h, fun hw hi => flags_of_writesFlags hw hi h, fun hbr f => ?_⟩
  cases hw : writesFlags i.variant with
  | true => exact ⟨t, (exec_setFlags_of_writesFlags hw s f).trans h, rfl, rfl, rfl, rfl⟩
  | false => exact ⟨t.setFlags f, exec_setFlags_of_not_writesFlags hw hbr h f, rfl, rfl, rfl, rfl⟩

/-- Settles O22: each shape leaves the flags, sets them by `setcc`, or is RTI's, whose only word is x8000. -/
theorem flagsOneHotFailsInTwoWaysOnly : Obligations.FlagsOneHotFailsInTwoWaysOnly := by
  intro s t h
  obtain ⟨i, hdecode, hexec⟩ := step_next_inv h
  have left_alone (hsame : t.flags = s.flags) :
      t.flags.oneHot = true ∨ (s.flags.oneHot = false ∧ t.flags = s.flags) := by
    rw [hsame]
    cases s.flags.oneHot with
    | true => exact .inl rfl
    | false => exact .inr ⟨rfl, rfl⟩
  cases exec_next_shape hexec with
  | result => exact .inl (oneHot_setcc _)
  | jump | stay | link | store => exact (left_alone rfl).imp_right .inl
  | frame hi hpriv =>
    subst hi
    exact .inr (.inr ⟨eq_of_decode_rti hdecode, hpriv, by rw [← add_ofInt_eq_wrapSum]; rfl⟩)

/-! ## The unprivileged invariant (R27, R211) -/

/-- Advancing the pc touches nothing the invariant speaks of. -/
theorem State.UserInv.advance {s : State} (h : s.UserInv) : s.advance.UserInv := h

/-- R27, R211. Unprivileged, RTI answers no next state, and only RTI could break the mode or the flags. -/
theorem State.UserInv.exec_next {i : Instr} {s t : State} (hs : s.UserInv) (h : exec i s = .next t) : t.UserInv := by
  obtain ⟨hpriv, hflags, hmem⟩ := hs
  cases exec_next_shape h with
  | result dr v => exact ⟨hpriv, oneHot_setcc v, hmem⟩
  | jump | stay | link => exact ⟨hpriv, hflags, hmem⟩
  | store a v => exact ⟨hpriv, hflags, Memory.wf_write hmem a v⟩
  | frame _ hp => exact absurd hp (by simp [hpriv])

/-- Settles O28: the advance and the instruction run on it each keep the invariant. -/
theorem userInvariantKeptByStep : Obligations.UserInvariantKeptByStep := by
  intro s t hs h
  obtain ⟨i, -, hexec⟩ := step_next_inv h
  exact hs.advance.exec_next hexec

/-! ## The registers (R13) -/

/-- R13, right column. A register that is not the row's destination is as before. -/
theorem reg_of_ne_regWritten {i : Instr} {s t : State} {r : Reg} (h : exec i s = .next t)
    (hr : regWritten i ≠ some r) : t.reg r = s.reg r := by
  cases exec_next_shape h with
  | result dr v hreg => exact State.reg_setResult_ne fun e => hr (e ▸ hreg)
  | link v hreg => exact State.reg_jumpLinking_ne fun e => hr (e ▸ hreg)
  | frame hi => subst hi; exact State.reg_returnFromFrame_ne fun e => hr (e ▸ rfl)
  | jump | stay | store => rfl

/-- Two states agree on everything but the registers. -/
structure AgreeBesidesRegs (s s' : State) : Prop where
  pc : s'.pc = s.pc
  flags : s'.flags = s.flags
  priv : s'.priv = s.priv
  mem : s'.mem = s.mem

/-- Two outcomes agree: both next states, alike besides the registers and in the register `w`; or the same fault. -/
inductive OutcomesAgree (w : Option Reg) :
    Host.Outcome State Fault Refusal → Host.Outcome State Fault Refusal → Prop where
  | next {t t' : State} (hrest : AgreeBesidesRegs t t') (hreg : ∀ r, w = some r → t'.reg r = t.reg r) :
      OutcomesAgree w (.next t) (.next t')
  | fault (f : Fault) : OutcomesAgree w (.fault f) (.fault f)

theorem OutcomesAgree.exists_of_next {w : Option Reg} {t : State} {o : Host.Outcome State Fault Refusal}
    (h : OutcomesAgree w (.next t) o) :
    ∃ t', o = .next t' ∧ AgreeBesidesRegs t t' ∧ ∀ r, w = some r → t'.reg r = t.reg r := by
  cases h with
  | next hrest hreg => exact ⟨_, rfl, hrest, hreg⟩

theorem OutcomesAgree.eq_of_fault {w : Option Reg} {f : Fault} {o : Host.Outcome State Fault Refusal}
    (h : OutcomesAgree w (.fault f) o) : o = .fault f := by
  cases h with
  | fault => rfl

namespace AgreeBesidesRegs

variable {s s' : State} (h : AgreeBesidesRegs s s')
include h

theorem read (a : Word) : s'.read a = s.read a := by rw [State.read, State.read, h.mem]

theorem pcRelative {n : Nat} (off : BitVec n) : s'.pcRelative off = s.pcRelative off := by
  rw [State.pcRelative, State.pcRelative, h.pc]

theorem indirect (off9 : BitVec 9) : s'.indirect off9 = s.indirect off9 := by
  rw [State.indirect, State.indirect, h.pcRelative, h.read]

theorem instrAddr : s'.instrAddr = s.instrAddr := by rw [State.instrAddr, State.instrAddr, h.pc]

theorem setResult (dr : Reg) (v : Word) :
    OutcomesAgree (some dr) (.next (s.setResult dr v)) (.next (s'.setResult dr v)) :=
  .next ⟨h.pc, rfl, h.priv, h.mem⟩ (by simp)

theorem setPc (v : Word) : OutcomesAgree none (.next (s.setPc v)) (.next (s'.setPc v)) :=
  .next ⟨rfl, h.flags, h.priv, h.mem⟩ (by simp)

theorem jumpLinking (v : Word) :
    OutcomesAgree (some 7) (.next (s.jumpLinking v)) (.next (s'.jumpLinking v)) :=
  .next ⟨rfl, h.flags, h.priv, h.mem⟩ (by simp [h.pc])

theorem write (a v : Word) : OutcomesAgree none (.next (s.write a v)) (.next (s'.write a v)) :=
  .next ⟨h.pc, h.flags, h.priv, by simp [h.mem]⟩ (by simp)

theorem returnFromFrame (hsp : s'.reg 6 = s.reg 6) :
    OutcomesAgree (some 6) (.next s.returnFromFrame) (.next s'.returnFromFrame) :=
  .next ⟨by simp [hsp, h.read], by simp [hsp, h.read], by simp [hsp, h.read], h.mem⟩ (by simp [hsp])

/-- R13, middle column. What an instruction does depends on no register but the row's sources. -/
theorem outcomesAgree {i : Instr} (hr : ∀ r ∈ regsRead i, s'.reg r = s.reg r) :
    OutcomesAgree (regWritten i) (exec i s) (exec i s') := by
  cases i with
  | addReg dr | addImm dr | andReg dr | andImm dr | not dr | ld dr | ldi dr | ldr dr | lea dr =>
    simp only [regsRead, List.forall_mem_cons] at hr
    simpa [regWritten, State.baseOffset, hr, h.read, h.pcRelative, h.indirect] using h.setResult dr _
  | br nzp off9 =>
    rw [exec_br, exec_br, h.flags, h.pcRelative]
    split
    · exact h.setPc _
    · exact .next h (by simp [regWritten])
  | ret | jmp =>
    simp only [regsRead, List.forall_mem_cons] at hr
    simpa [regWritten, hr] using h.setPc _
  | jsr | jsrr | trap =>
    simp only [regsRead, List.forall_mem_cons] at hr
    simpa [regWritten, hr, h.read, h.pcRelative] using h.jumpLinking _
  | st | sti | str =>
    simp only [regsRead, List.forall_mem_cons] at hr
    simpa [regWritten, State.baseOffset, hr, h.pcRelative, h.indirect] using h.write _ _
  | rti =>
    rw [exec_rti, exec_rti, h.priv, h.instrAddr]
    split
    · exact h.returnFromFrame (hr 6 (by simp [regsRead]))
    · exact .fault _

end AgreeBesidesRegs

/-- Settles O23: the frame from the next state's shape, the dependence from states that agree on the row's sources. -/
theorem registersReadAndWrittenPerTable : Obligations.RegistersReadAndWrittenPerTable := by
  intro i s
  refine ⟨fun t h r hr => reg_of_ne_regWritten h hr, fun s' hpc hflags hpriv hmem hr => ?_⟩
  have hagree := (AgreeBesidesRegs.mk hpc hflags hpriv hmem).outcomesAgree hr
  refine ⟨fun t h => ?_, fun f h => (h ▸ hagree).eq_of_fault⟩
  obtain ⟨t', h', hrest, hreg⟩ := (h ▸ hagree).exists_of_next
  exact ⟨t', h', hrest.pc, hrest.flags, hrest.priv, hrest.mem, hreg⟩

/-! ## The pc (R16, R17) -/

/-- R17. A variant outside the writers' list leaves the pc alone. -/
theorem pc_of_not_writesPc {i : Instr} {s t : State} (hw : writesPc i.variant = false) (h : exec i s = .next t) :
    t.pc = s.pc := by
  cases exec_next_shape h with
  | jump v _ _ hpc | link v _ _ hpc => rw [hw] at hpc; cases hpc
  | frame hi => subst hi; cases hw
  | result | stay | store => rfl

theorem exec_br_taken {nzp : BitVec 3} {s : State} (h : branchTaken nzp s.flags = true) (off9 : BitVec 9) :
    exec (.br nzp off9) s = .next (s.setPc (s.pcRelative off9)) := by
  rw [exec_br, if_pos h]

theorem exec_br_not_taken {nzp : BitVec 3} {s : State} (h : branchTaken nzp s.flags = false) (off9 : BitVec 9) :
    exec (.br nzp off9) s = .next s := by
  rw [exec_br, h]
  rfl

/-- Settles O24: the instruction runs on the advanced state, and leaves that pc or adds its offset to it. -/
theorem pcWrittenPerTable : Obligations.PcWrittenPerTable := by
  intro i s t hdecode hstep
  have h : exec i s.advance = .next t := (step_of_decode hdecode).symm.trans hstep
  refine ⟨?_, ?_, ?_⟩
  · rintro (hw | ⟨nzp, off9, rfl, hb⟩)
    · rw [pc_of_not_writesPc hw h, State.toNat_pc_advance]
    · obtain rfl : s.advance = t := Host.Outcome.next.inj ((exec_br_not_taken (s := s.advance) hb off9).symm.trans h)
      exact s.toNat_pc_advance
  · rintro nzp off9 rfl hb
    obtain rfl := Host.Outcome.next.inj ((exec_br_taken (s := s.advance) hb off9).symm.trans h)
    exact s.toNat_pcRelative_advance off9
  · rintro off11 rfl
    obtain rfl := Host.Outcome.next.inj h
    exact s.toNat_pcRelative_advance off11

/-- Settles O33: the step is `invoke` on the fetched word, and `invoke` on a word that decodes is `exec`. -/
theorem stepRunsDecodedInstruction : Obligations.StepRunsDecodedInstruction := by
  intro s
  rw [← State.advance_eq]
  exact ⟨rfl, fun i hdecode => step_of_decode hdecode⟩

/-! ## The mode (R20) -/

/-- Settles O26: every meaning but RTI's carries the mode along unread. -/
theorem modeGatesRtiOnly : Obligations.ModeGatesRtiOnly := by
  intro i s b hi
  cases i with
  | rti => exact absurd rfl hi
  | br nzp off9 =>
    cases hb : branchTaken nzp s.flags with
    | true => exact ⟨_, exec_br_taken hb off9, rfl, exec_br_taken (s := s.setPriv b) hb off9⟩
    | false => exact ⟨_, exec_br_not_taken hb off9, rfl, exec_br_not_taken (s := s.setPriv b) hb off9⟩
  | addReg | addImm | andReg | andImm | not | ld | ldi | ldr | lea => exact ⟨_, rfl, rfl, rfl⟩
  | ret | jmp | jsr | jsrr | trap => exact ⟨_, rfl, rfl, rfl⟩
  | st | sti | str => exact ⟨_, rfl, rfl, rfl⟩

/-! ## Reset (R26) -/

/-- Settles O30: the empty memory is canonical, and a load keeps the form. -/
theorem canonicalMemoryAtReset : Obligations.CanonicalMemoryAtReset :=
  ⟨State.reset_mem_wf, fun _ image hmem => Memory.wf_load hmem image⟩

/-- Settles O52: each field is the value Config names, and the empty memory lists no location. -/
theorem resetHoldsTheValuesTheLogNames : Obligations.ResetHoldsTheValuesTheLogNames :=
  ⟨fun r => Vector.getElem_replicate r.isLt, rfl, rfl, rfl, fun a => Memory.lookup_nil a.toNat⟩

end Sys2Proof.Machine
end

section
/-! PROOF. The memory family (spec/20_memory.md R30 to R43): canonical memories are determined by what they read, every
step keeps the form, the access table of R33 accounts for memory, and the addressing modes are wrapped sums. -/

namespace Sys2Proof.Machine

/-! ## Canonical memories (R30 to R32) -/

/-- The entry found by a lookup that does not answer the unlisted value. -/
theorem Memory.mem_of_lookup_ne_unlisted {m : Memory} {a : Nat} (h : Memory.lookup m a ≠ Memory.unlisted) :
    (a, Memory.lookup m a) ∈ m := by
  induction m with
  | nil => exact absurd rfl h
  | cons c m ih =>
    rw [Memory.lookup_cons] at h ⊢
    split at h
    · next hca => rw [if_pos hca, ← hca]; exact List.mem_cons_self
    · next hca => rw [if_neg hca]; exact List.mem_cons_of_mem c (ih h)

/-- With strictly rising addresses, an entry is the one its address's lookup finds. -/
theorem Memory.lookup_eq_of_mem {m : Memory} (hrise : m.Pairwise fun c d => c.1 < d.1) {c : Nat × Word}
    (hc : c ∈ m) : Memory.lookup m c.1 = c.2 := by
  induction m with
  | nil => cases hc
  | cons d m ih =>
    obtain ⟨hd, hrise⟩ := List.pairwise_cons.1 hrise
    rw [Memory.lookup_cons]
    rcases List.mem_cons.1 hc with rfl | hc
    · exact if_pos rfl
    · rw [if_neg (hd c hc).ne, ih hrise hc]

/-- A canonical memory lists nothing that a memory reading alike does not list. -/
theorem Memory.subset_of_read_eq {m m' : Memory} (hm : m.wf) (hread : ∀ a, Memory.read m a = Memory.read m' a) :
    m ⊆ m' := by
  intro c hc
  obtain ⟨hrise, hentry⟩ := hm
  obtain ⟨hbound, hlisted⟩ := hentry c hc
  have hlookup : Memory.lookup m' c.1 = c.2 := by
    have hnat : (BitVec.ofNat 16 c.1).toNat = c.1 := Nat.mod_eq_of_lt hbound
    have h := hread (BitVec.ofNat 16 c.1)
    rwa [Memory.read, Memory.read, hnat, Memory.lookup_eq_of_mem hrise hc, eq_comm] at h
  have hfound := Memory.mem_of_lookup_ne_unlisted (hlookup.trans_ne hlisted)
  rwa [hlookup] at hfound

theorem Memory.wf.nodup {m : Memory} (hm : m.wf) : m.Nodup :=
  hm.1.imp fun hlt heq => hlt.ne (congrArg Prod.fst heq)

/-- Settles O31: the two list the same entries, and strictly rising addresses leave one order for them. -/
theorem canonicalMemoriesThatReadAlikeAreEqual : Obligations.CanonicalMemoriesThatReadAlikeAreEqual := by
  intro m m' hm hm' hread
  have hperm : m.Perm m' := (List.perm_ext_iff_of_nodup hm.nodup hm'.nodup).2 fun _ =>
    ⟨fun hc => Memory.subset_of_read_eq hm hread hc,
      fun hc => Memory.subset_of_read_eq hm' (fun a => (hread a).symm) hc⟩
  exact hperm.eq_of_pairwise (fun _ _ _ _ h h' => absurd h' h.asymm) hm.1 hm'.1

/-! ## The writes of the access table (R33) -/

/-- R33. Memory after an instruction is what its listed writes make of it. -/
theorem mem_eq_after_accesses {i : Instr} {s t : State} (h : exec i s = .next t) :
    t.mem = Memory.after s.mem (accesses i s) := by
  cases i with
  | addReg | addImm | andReg | andImm | not | lea | ld | ldi | ldr | ret | jmp | jsr | jsrr | trap | st | sti | str =>
    obtain rfl := Host.Outcome.next.inj h
    rfl
  | br nzp off9 =>
    obtain rfl := Host.Outcome.next.inj h
    split <;> rfl
  | rti =>
    rw [exec_rti] at h
    split at h
    · next hpriv =>
      obtain rfl := Host.Outcome.next.inj h
      simp [accesses, hpriv, State.readAccess, Memory.after]
    · cases h

theorem Memory.wf_after {m : Memory} (hm : m.wf) (l : List Access) : (Memory.after m l).wf := by
  induction l generalizing m with
  | nil => exact hm
  | cons c l ih =>
    cases c with
    | read a v => exact ih hm
    | write a v => exact ih (Memory.wf_write hm a v)

/-- Settles O29: the advance leaves memory alone, and the instruction leaves it as its listed accesses make it. -/
theorem canonicalMemoryKeptByStep : Obligations.CanonicalMemoryKeptByStep := by
  intro s t hs h
  obtain ⟨i, -, hexec⟩ := step_next_inv h
  rw [State.Inv, mem_eq_after_accesses hexec, State.mem_advance]
  exact Memory.wf_after hs _

/-- R33. An instruction that lists a write does that write and nothing else. -/
theorem exec_of_write_mem_accesses {i : Instr} {s : State} {a v : Word} (h : Access.write a v ∈ accesses i s) :
    exec i s = .next (s.write a v) := by
  cases i with
  | st | str =>
    obtain ⟨rfl, rfl⟩ := Access.write.inj (List.mem_singleton.1 h)
    rfl
  | sti sr off9 =>
    obtain ⟨rfl, rfl⟩ : a = s.indirect off9 ∧ v = s.reg sr := by simpa [accesses, State.readAccess] using h
    rfl
  | rti =>
    rw [accesses] at h
    split at h <;> simp [State.readAccess] at h
  | addReg | addImm | andReg | andImm | not | br | ret | jmp | jsr | jsrr | lea => cases h
  | ld | ldi | ldr | trap => simp [accesses, State.readAccess] at h

/-- A step invokes the core with the word that its pc reads. -/
theorem step_of_read_pc {s : State} {v : Word} (h : s.read s.pc = v) : step s = invoke v s.advance := by
  rw [step, State.fetchWord, h]

/-- Settles O38: the instruction's next state is the store, and the fetch reads the memory the store wrote. -/
theorem storeSeenByNextFetch : Obligations.StoreSeenByNextFetch := by
  intro i s a v h
  refine ⟨s.write a v, exec_of_write_mem_accesses h, step_of_read_pc (by simp), fun hpc => ?_⟩
  exact step_of_read_pc (by rw [← hpc, State.read_write_self])

/-! ## The reads of the access table (R33) -/

/-- A fault is RTI's, raised before any access (R187). -/
theorem accesses_of_fault {i : Instr} {s : State} {f : Fault} (h : exec i s = .fault f) : accesses i s = [] := by
  cases i with
  | rti =>
    rw [exec_rti] at h
    split at h
    · cases h
    · next hpriv => exact if_neg hpriv
  | addReg | addImm | andReg | andImm | not | br | ret | jmp | jsr | jsrr | lea => rfl
  | ld | ldi | ldr | st | sti | str | trap => cases h

/-- Two states agree on everything but memory. -/
structure AgreeBesidesMem (s u : State) : Prop where
  regs : u.regs = s.regs
  pc : u.pc = s.pc
  flags : u.flags = s.flags
  priv : u.priv = s.priv

/-- A state whose memory returns the word that a listed read returned; of a write nothing is asked. -/
def Access.ReadFrom (u : State) : Access → Prop
  | .read a v => u.read a = v
  | .write _ _ => True

theorem Access.readFrom_readAccess (u s : State) (a : Word) : (s.readAccess a).ReadFrom u ↔ u.read a = s.read a :=
  Iff.rfl

namespace AgreeBesidesMem

variable {s u : State} (h : AgreeBesidesMem s u)
include h

theorem reg (r : Reg) : u.reg r = s.reg r := by rw [State.reg, State.reg, h.regs]

theorem pcRelative {n : Nat} (off : BitVec n) : u.pcRelative off = s.pcRelative off := by
  rw [State.pcRelative, State.pcRelative, h.pc]

theorem baseOffset (baseR : Reg) (off6 : BitVec 6) : u.baseOffset baseR off6 = s.baseOffset baseR off6 := by
  rw [State.baseOffset, State.baseOffset, h.reg]

theorem indirect {off9 : BitVec 9} (hread : u.read (s.pcRelative off9) = s.read (s.pcRelative off9)) :
    u.indirect off9 = s.indirect off9 := by
  rw [State.indirect, State.indirect, h.pcRelative, hread]

theorem setResult (dr : Reg) (v : Word) : AgreeBesidesMem (s.setResult dr v) (u.setResult dr v) :=
  ⟨congrArg (·.set dr v) h.regs, h.pc, rfl, h.priv⟩

theorem setPc (v : Word) : AgreeBesidesMem (s.setPc v) (u.setPc v) :=
  ⟨h.regs, rfl, h.flags, h.priv⟩

theorem jumpLinking (v : Word) : AgreeBesidesMem (s.jumpLinking v) (u.jumpLinking v) :=
  ⟨congrArg₂ (Vector.set · 7 ·) h.regs h.pc, rfl, h.flags, h.priv⟩

theorem write (a v b w : Word) : AgreeBesidesMem (s.write a v) (u.write b w) :=
  ⟨h.regs, h.pc, h.flags, h.priv⟩

theorem returnFromFrame (hpc : u.read (s.reg 6) = s.read (s.reg 6))
    (hword : u.read (s.reg 6 + 1#16) = s.read (s.reg 6 + 1#16)) :
    AgreeBesidesMem s.returnFromFrame u.returnFromFrame :=
  ⟨by simp [State.returnFromFrame, State.setReg, h.regs, h.reg], by simp [h.reg, hpc], by simp [h.reg, hword],
    by simp [h.reg, hword]⟩

/-- R33. The listed accesses depend on memory only through the words that the listed reads return. -/
theorem accesses_eq {i : Instr} (hread : ∀ c ∈ accesses i s, c.ReadFrom u) : accesses i u = accesses i s := by
  cases i with
  | addReg | addImm | andReg | andImm | not | br | ret | jmp | jsr | jsrr | lea => rfl
  | ld | ldr | trap =>
    simp only [accesses, List.forall_mem_singleton, Access.readFrom_readAccess] at hread
    simp only [accesses, State.readAccess, h.pcRelative, h.baseOffset, hread]
  | ldi =>
    simp only [accesses, List.forall_mem_cons, Access.readFrom_readAccess] at hread
    obtain ⟨hpointer, hdatum, -⟩ := hread
    simp only [accesses, State.readAccess, h.pcRelative, h.indirect hpointer, hpointer, hdatum]
  | st | str => simp only [accesses, h.pcRelative, h.baseOffset, h.reg]
  | sti =>
    simp only [accesses, List.forall_mem_cons, Access.readFrom_readAccess] at hread
    obtain ⟨hpointer, -⟩ := hread
    simp only [accesses, State.readAccess, h.pcRelative, h.indirect hpointer, hpointer, h.reg]
  | rti =>
    rw [accesses, accesses, h.priv]
    split
    · next hpriv =>
      simp only [accesses, if_pos hpriv, List.forall_mem_cons, Access.readFrom_readAccess] at hread
      obtain ⟨hpc, hword, -⟩ := hread
      simp only [State.readAccess, h.reg, hpc, hword]
    · rfl

/-- R33. An instruction's effect besides memory depends on memory only through the words that the listed reads
return. -/
theorem exec_next {i : Instr} {t : State} (hread : ∀ c ∈ accesses i s, c.ReadFrom u) (ht : exec i s = .next t) :
    ∃ v, exec i u = .next v ∧ AgreeBesidesMem t v := by
  cases i with
  | addReg dr | addImm dr | andReg dr | andImm dr | not dr | lea dr =>
    obtain rfl := Host.Outcome.next.inj ht
    exact ⟨_, rfl, by simpa [h.reg, h.pcRelative] using h.setResult dr _⟩
  | ld dr | ldr dr =>
    simp only [accesses, List.forall_mem_singleton, Access.readFrom_readAccess] at hread
    obtain rfl := Host.Outcome.next.inj ht
    exact ⟨_, rfl, by simpa [h.pcRelative, h.baseOffset, hread] using h.setResult dr _⟩
  | ldi dr =>
    simp only [accesses, List.forall_mem_cons, Access.readFrom_readAccess] at hread
    obtain ⟨hpointer, hdatum, -⟩ := hread
    obtain rfl := Host.Outcome.next.inj ht
    exact ⟨_, rfl, by simpa [h.indirect hpointer, hdatum] using h.setResult dr _⟩
  | br nzp off9 =>
    rw [exec_br, Host.Outcome.next.injEq] at ht
    subst ht
    refine ⟨_, exec_br .., ?_⟩
    rw [h.flags, h.pcRelative]
    split
    · exact h.setPc _
    · exact h
  | ret | jmp =>
    obtain rfl := Host.Outcome.next.inj ht
    exact ⟨_, rfl, by simpa [h.reg] using h.setPc _⟩
  | jsr | jsrr =>
    obtain rfl := Host.Outcome.next.inj ht
    exact ⟨_, rfl, by simpa [h.reg, h.pcRelative] using h.jumpLinking _⟩
  | trap =>
    simp only [accesses, List.forall_mem_singleton, Access.readFrom_readAccess] at hread
    obtain rfl := Host.Outcome.next.inj ht
    exact ⟨_, rfl, by simpa [hread] using h.jumpLinking _⟩
  | st | sti | str =>
    obtain rfl := Host.Outcome.next.inj ht
    exact ⟨_, rfl, h.write ..⟩
  | rti =>
    rw [exec_rti] at ht
    split at ht
    · next hpriv =>
      simp only [accesses, if_pos hpriv, List.forall_mem_cons, Access.readFrom_readAccess] at hread
      obtain ⟨hpc, hword, -⟩ := hread
      obtain rfl := Host.Outcome.next.inj ht
      exact ⟨_, by rw [exec_rti, h.priv, if_pos hpriv], h.returnFromFrame hpc hword⟩
    · cases ht

end AgreeBesidesMem

/-- Settles O25: the listed writes make the memory, RTI's fault comes before any access, and states that agree besides
memory and return the listed words run alike. -/
theorem accessTableAccountsForMemory : Obligations.AccessTableAccountsForMemory := by
  intro i s
  refine ⟨fun t h => mem_eq_after_accesses h, fun f h => accesses_of_fault h, fun m hm => ?_⟩
  have hagree : AgreeBesidesMem s { s with mem := m } := ⟨rfl, rfl, rfl, rfl⟩
  have hread : ∀ c ∈ accesses i s, c.ReadFrom { s with mem := m }
    | .read a v, hc => hm a v hc
    | .write _ _, _ => trivial
  refine ⟨hagree.accesses_eq hread, fun t ht => ?_⟩
  obtain ⟨u, hu, hrest⟩ := hagree.exec_next hread ht
  exact ⟨u, hu, hrest.regs, hrest.pc, hrest.flags, hrest.priv⟩

/-! ## The addressing modes (R43, R154) -/

theorem State.baseOffset_eq_wrapSum (s : State) (baseR : Reg) (off6 : BitVec 6) :
    s.baseOffset baseR off6 = wrapSum (s.reg baseR) off6.toInt :=
  add_ofInt_eq_wrapSum (s.reg baseR) off6.toInt

/-- R37. The table starts at x0000, and extending eight bits with zeros keeps their number. -/
theorem toNat_trapEntryAddr (vect8 : BitVec 8) : (trapEntryAddr vect8).toNat = vect8.toNat := by
  rw [trapEntryAddr, Config.trapTableBase, BitVec.zero_add, zext, BitVec.toNat_setWidth_of_le (by decide)]

/-- Settles O32: the sums are wrapped sums, whose number is the exact sum modulo 2^16. -/
theorem addressingModesAreWrappedSums : Obligations.AddressingModesAreWrappedSums := by
  intro s
  refine ⟨fun n off _ => ?_, fun off9 => ?_, fun baseR off6 => ?_, toNat_trapEntryAddr⟩
  · rw [State.pcRelative_eq_wrapSum, toNat_wrapSum]
  · rw [State.indirect, State.pcRelative_eq_wrapSum]
  · rw [State.baseOffset_eq_wrapSum, toNat_wrapSum]

end Sys2Proof.Machine
end

section
/-! PROOF. The encoding family, decoder side (spec/30_encoding.md R51 to R64, R73, R77; spec/40_decoder.md R91, R95).
The fields of a template tile the word, so a word is what its fields hold, and a template matches where its Fixed
fields do. -/

namespace Sys2Proof

/-! ## The fields of a template tile the word (R54, R55) -/

/-- The constant of a Fixed field, 0 for a variable one (R51). -/
def Field.constant (f : Field) : Nat :=
  match f.kind with
  | .fixed value => value
  | .register | .immediate _ | .label => 0

/-- The number a word holds in a placed field. -/
theorem toNat_extractLsb'_eq_div_mod (w : Word) (lo len : Nat) :
    (w.extractLsb' lo len).toNat = w.toNat / 2 ^ lo % 2 ^ len := by
  rw [BitVec.extractLsb'_toNat, Nat.shiftRight_eq_div_pow]

/-- R55. Placing the fields keeps their order. -/
theorem map_fst_placedFrom (top : Nat) (fs : List Field) : (placedFrom top fs).map Prod.fst = fs := by
  induction fs generalizing top with
  | nil => rfl
  | cons f fs ih => rw [placedFrom, List.map_cons, ih]

/-- R54. Every bit of the word belongs to a field. -/
theorem Variant.exists_placed_of_lt (v : Variant) : ∀ k < 16, ∃ c ∈ v.placed, c.2 ≤ k ∧ k < c.2 + c.1.width := by
  cases v <;> decide

/-- Two words are equal when every field of some template holds the same bits in both. -/
theorem eq_of_forall_placed (v : Variant) {x y : Word}
    (h : ∀ c ∈ v.placed, x.extractLsb' c.2 c.1.width = y.extractLsb' c.2 c.1.width) : x = y := by
  refine BitVec.eq_of_getLsbD_eq fun k hk => ?_
  obtain ⟨c, hc, hlo, hhi⟩ := v.exists_placed_of_lt k hk
  have hbit := congrArg (BitVec.getLsbD · (k - c.2)) (h c hc)
  simpa [BitVec.getLsbD_extractLsb', Nat.add_sub_cancel' hlo, show k - c.2 < c.1.width by omega] using hbit

/-- R62. `mask` covers the Fixed fields and no other. -/
theorem Variant.mask_extractLsb' (v : Variant) : ∀ c ∈ v.placed,
    v.mask.extractLsb' c.2 c.1.width = if c.1.isVariable then 0#_ else BitVec.allOnes _ := by
  cases v <;> decide

/-- R62. `match` holds the constant of every Fixed field and 0 in the variable ones. -/
theorem Variant.matchBits_extractLsb' (v : Variant) : ∀ c ∈ v.placed,
    (v.matchBits.extractLsb' c.2 c.1.width).toNat = c.1.constant := by
  cases v <;> decide

theorem Field.constant_of_isVariable {f : Field} (h : f.isVariable = true) : f.constant = 0 := by
  obtain ⟨kind, width⟩ := f
  cases kind with
  | fixed => cases h
  | register | immediate | label => rfl

/-- R91. A template matches exactly the words whose bits equal the constants of its Fixed fields. -/
theorem Variant.matchesWord_iff (v : Variant) (w : Word) : v.matchesWord w = true ↔
    ∀ c ∈ v.placed, c.1.isVariable = false → (w.extractLsb' c.2 c.1.width).toNat = c.1.constant := by
  rw [Variant.matchesWord, beq_iff_eq]
  refine ⟨fun h c hc hfixed => ?_, fun h => eq_of_forall_placed v fun c hc => ?_⟩
  · rw [← v.matchBits_extractLsb' c hc, ← h, BitVec.extractLsb'_and, v.mask_extractLsb' c hc]
    simp [hfixed]
  · rw [BitVec.extractLsb'_and, v.mask_extractLsb' c hc, ← BitVec.toNat_inj, v.matchBits_extractLsb' c hc]
    cases hvar : c.1.isVariable with
    | true => simp [Field.constant_of_isVariable hvar]
    | false => simpa [-BitVec.extractLsb'_toNat] using h c hc hvar

/-! ## The extractor (R95) -/

/-- R54. As many fields are read as the template has variable ones. -/
theorem length_extractFields (v : Variant) (w : Word) : (extractFields v w).length = v.arity := by
  rw [extractFields, List.length_map, ← List.countP_eq_length_filter, Variant.arity,
    ← map_fst_placedFrom 16 v.fields, List.countP_map]
  rfl

theorem extractFields_eq_map_extractLsb' (v : Variant) (w : Word) : extractFields v w =
    (v.placed.filter fun c => c.1.isVariable).map fun c => (w.extractLsb' c.2 c.1.width).toNat := by
  simp only [toNat_extractLsb'_eq_div_mod, extractFields]

/-- R95. The instruction extracted holds, in each operand, the bits its field's place gives. -/
theorem fieldValues_extract (v : Variant) (w : Word) : (extract v w).fieldValues = extractFields v w := by
  rw [extractFields_eq_map_extractLsb']
  cases v <;> rfl

/-- Settles O47: the operands are the placed bits, and placing the fields keeps their number. -/
theorem extractorCopiesPlacedBits : Obligations.ExtractorCopiesPlacedBits := fun v w =>
  ⟨Machine.variant_extract v w, fieldValues_extract v w, length_extractFields v w⟩

/-- Settles O45: each column is computed from the nineteen field lists. -/
theorem matchAndMaskFollowFromFields : Obligations.MatchAndMaskFollowFromFields := by
  intro v
  cases v <;> decide

theorem Variant.sum_width_fields (v : Variant) : (v.fields.map Field.width).sum = 16 := by
  cases v <;> rfl

theorem Variant.width_of_register (v : Variant) : ∀ f ∈ v.fields, f.kind = .register → f.width = 3 := by
  cases v <;> decide

/-- Settles O46: the widths and arities are those of the lists, and the extractor reads `arity` fields. -/
theorem fieldWidthsSumToSixteen : Obligations.FieldWidthsSumToSixteen := by
  refine ⟨fun v => ⟨v.sum_width_fields, v.width_of_register, fun w => ?_⟩, by decide⟩
  rw [fieldValues_extract, length_extractFields]

/-- Settles O50: each sample is evaluated. -/
theorem sampleWordsDecodeAsTheSpecSays : Obligations.SampleWordsDecodeAsTheSpecSays :=
  ⟨rfl, rfl, rfl, rfl, rfl, rfl, rfl, rfl, rfl, rfl, rfl⟩

/-! ## The selector (R63, R90 to R93) -/

theorem Variant.mem_catalog (v : Variant) : v ∈ catalog := by
  cases v <;> decide

/-- R63. Two templates whose constants agree where both are Fixed are RET and JMP. -/
theorem mem_ret_jmp_of_compatible : ∀ v ∈ catalog, ∀ v' ∈ catalog, v ≠ v' →
    v.matchBits &&& v'.mask = v'.matchBits &&& v.mask → v ∈ [.ret, .jmp] ∧ v' ∈ [.ret, .jmp] := by
  decide

/-- R63. Templates that match a common word have constants that agree where both are Fixed. -/
theorem Variant.compatible_of_matchesWord {v v' : Variant} {w : Word} (h : v.matchesWord w = true)
    (h' : v'.matchesWord w = true) : v.matchBits &&& v'.mask = v'.matchBits &&& v.mask := by
  rw [← beq_iff_eq.1 h, ← beq_iff_eq.1 h', BitVec.and_assoc, BitVec.and_assoc, BitVec.and_comm v.mask]

/-- R60 #7. RET has no variable field, so it has one word. -/
theorem eq_of_matchesWord_ret {w : Word} (h : Variant.ret.matchesWord w = true) : w = 0xC1C0#16 := by
  have hmask : w &&& BitVec.allOnes 16 = 0xC1C0#16 := beq_iff_eq.1 h
  rwa [BitVec.and_allOnes] at hmask

/-- R63. Only RET and JMP share a word, and it is RET's. -/
theorem overlap_of_matchesWord {v v' : Variant} {w : Word} (hne : v ≠ v') (h : v.matchesWord w = true)
    (h' : v'.matchesWord w = true) : w = 0xC1C0#16 ∧ v ∈ [.ret, .jmp] ∧ v' ∈ [.ret, .jmp] := by
  obtain ⟨hv, hv'⟩ := mem_ret_jmp_of_compatible v v.mem_catalog v' v'.mem_catalog hne (v.compatible_of_matchesWord h h')
  refine ⟨?_, hv, hv'⟩
  obtain rfl | rfl : v = .ret ∨ v = .jmp := by simpa using hv
  · exact eq_of_matchesWord_ret h
  · obtain rfl : v' = .ret := by simpa [hne.symm] using hv'
    exact eq_of_matchesWord_ret h'

/-- Settles O43: two templates that match a word are compatible, and only RET and JMP are. -/
theorem onlyOneWordMatchesTwoTemplates : Obligations.OnlyOneWordMatchesTwoTemplates :=
  ⟨fun _ _ _ hne h h' => overlap_of_matchesWord hne h h', by decide, by decide, by decide⟩

theorem selectTemplate_ret_word : selectTemplate 0xC1C0#16 = some .ret := by decide

/-- R90, R63. A template that matches a word is selected, unless it is JMP on RET's word. -/
theorem selectTemplate_of_matchesWord {v : Variant} {w : Word} (h : v.matchesWord w = true)
    (hjmp : v = .jmp → w ≠ 0xC1C0#16) : selectTemplate w = some v := by
  cases hsel : selectTemplate w with
  | none => exact absurd h (List.find?_eq_none.1 hsel v v.mem_catalog)
  | some u =>
    by_contra hne
    have hu : u.matchesWord w = true := List.find?_some (p := fun u : Variant => u.matchesWord w) hsel
    have hne' : v ≠ u := fun e => hne (congrArg some e.symm)
    obtain ⟨rfl, hv, -⟩ := overlap_of_matchesWord hne' h hu
    have hret : v = .ret := by simpa [show v ≠ .jmp from fun e => hjmp e rfl] using hv
    exact hne (hsel.symm.trans (hret ▸ selectTemplate_ret_word))

/-- R90. A word is decoded by the template selected. -/
theorem decode_of_selectTemplate {v : Variant} {w : Word} (h : selectTemplate w = some v) :
    decode w = .ok (extract v w) := by
  rw [decode, h]

/-- R96. A word is rejected exactly where no template of the catalog matches. -/
theorem decode_eq_error_iff (w : Word) :
    decode w = .error .illegalOpcode ↔ ∀ v ∈ catalog, ¬ v.matchesWord w = true := by
  rw [← List.find?_eq_none]
  cases hsel : selectTemplate w with
  | none => simp [decode, hsel, show catalog.find? (·.matchesWord w) = none from hsel]
  | some v => simp [decode, hsel, show catalog.find? (·.matchesWord w) = some v from hsel]

/-! ## The illegal words (R61, R64) -/

/-- The templates whose opcode bits are `o`, in catalog order (R61). -/
def templatesOfOpcode (o : BitVec 4) : List Variant :=
  catalog.filter fun v => v.matchBits.extractLsb' 12 4 == o

/-- A template's Fixed fields below its opcode: the lowest bit, the width and the constant of each (R55, R62). -/
def Variant.fixedBelowOpcode (v : Variant) : List (Nat × Nat × Nat) :=
  (v.placed.tail.filter fun c => !c.1.isVariable).map fun c => (c.2, c.1.width, c.1.constant)

/-- R61. Every template's first field is its opcode. -/
theorem Variant.placed_eq_cons (v : Variant) :
    v.placed = (fixedField 4 (v.matchBits.extractLsb' 12 4).toNat, 12) :: v.placed.tail := by
  cases v <;> rfl

/-- R91. A template of a word's own opcode matches where its other Fixed fields do. -/
theorem Variant.matchesWord_eq_all_fixedBelowOpcode {v : Variant} {w : Word}
    (h : v.matchBits.extractLsb' 12 4 = w.extractLsb' 12 4) :
    v.matchesWord w = v.fixedBelowOpcode.all fun p => (w.extractLsb' p.1 p.2.1).toNat == p.2.2 := by
  rw [Bool.eq_iff_iff, v.matchesWord_iff, v.placed_eq_cons, List.forall_mem_cons, Variant.fixedBelowOpcode,
    List.all_map, List.all_filter, List.all_eq_true, h]
  refine (and_iff_right fun _ => rfl).trans (forall₂_congr fun c _ => ?_)
  cases c.1.isVariable <;> simp

/-- R61, R96. Of the templates only those of a word's own opcode can match it. -/
theorem decode_eq_error_iff_templatesOfOpcode (w : Word) : decode w = .error .illegalOpcode ↔
    ∀ v ∈ templatesOfOpcode (w.extractLsb' 12 4), ¬ v.matchesWord w = true := by
  rw [decode_eq_error_iff]
  refine ⟨fun h v hv => h v v.mem_catalog, fun h v hv hmatch => h v ?_ hmatch⟩
  exact List.mem_filter.2 ⟨hv, beq_iff_eq.2 (Variant.opcodeBits_of_matchesWord hmatch).symm⟩

/-- R96. A word of opcode `k` is rejected where each template of that opcode, listed in `rows` by its Fixed fields below
the opcode, has one that does not hold its constant. -/
theorem decode_eq_error_iff_of_opcode {w : Word} {k : Nat} {rows : List (List (Nat × Nat × Nat))}
    (hk : (w.extractLsb' 12 4).toNat = k)
    (hrows : (templatesOfOpcode (BitVec.ofNat 4 k)).map Variant.fixedBelowOpcode = rows) :
    decode w = .error .illegalOpcode ↔
      (rows.all fun ps => ps.any fun p => (w.extractLsb' p.1 p.2.1).toNat != p.2.2) = true := by
  subst hk hrows
  rw [decode_eq_error_iff_templatesOfOpcode, BitVec.ofNat_toNat, BitVec.setWidth_eq, List.all_map, List.all_eq_true]
  refine forall₂_congr fun v hv => ?_
  have hop := beq_iff_eq.1 (List.mem_filter.1 hv).2
  rw [Variant.matchesWord_eq_all_fixedBelowOpcode hop, List.all_eq_not_any_not, Bool.not_eq_true, Bool.not_eq_false']
  rfl

/-- R61, R64. An opcode without a row in the table of illegal words has a template with no Fixed field below it. -/
theorem nil_mem_fixedBelowOpcode : ∀ o : BitVec 4, o.toNat ∉ [0x1, 0x4, 0x5, 0x8, 0x9, 0xC, 0xD, 0xF] →
    [] ∈ (templatesOfOpcode o).map Variant.fixedBelowOpcode := by
  decide

/-- Settles O44, row by row: the Fixed fields below the opcode in its templates, against the table's condition. -/
theorem illegalWordsAreTheTable : Obligations.IllegalWordsAreTheTable := by
  intro w
  unfold illegalByTable
  extract_lets bits
  split
  next h =>
    rw [decode_eq_error_iff_of_opcode (rows := [[(3, 3, 0)], [(5, 1, 1)]]) h rfl]
    simp [bits, Nat.shiftRight_eq_div_pow]
    omega
  next h =>
    rw [decode_eq_error_iff_of_opcode (rows := [[(11, 1, 1)], [(11, 1, 0), (9, 2, 0), (0, 6, 0)]]) h rfl]
    simp [bits, Nat.shiftRight_eq_div_pow]
    omega
  next h =>
    rw [decode_eq_error_iff_of_opcode (rows := [[(3, 3, 0)], [(5, 1, 1)]]) h rfl]
    simp [bits, Nat.shiftRight_eq_div_pow]
    omega
  next h =>
    rw [decode_eq_error_iff_of_opcode (rows := [[(0, 12, 0)]]) h rfl]
    simp [bits]
  next h =>
    rw [decode_eq_error_iff_of_opcode (rows := [[(0, 6, 63)]]) h rfl]
    simp [bits]
  next h =>
    rw [decode_eq_error_iff_of_opcode (rows := [[(9, 3, 0), (6, 3, 7), (0, 6, 0)], [(9, 3, 0), (0, 6, 0)]]) h rfl]
    simp [bits]
    omega
  next h =>
    rw [decode_eq_error_iff_of_opcode (rows := []) h rfl]
    simp
  next h =>
    rw [decode_eq_error_iff_of_opcode (rows := [[(8, 4, 0)]]) h rfl]
    simp [bits]
  next h1 h4 h5 h8 h9 hC hD hF =>
    have hmem := nil_mem_fixedBelowOpcode (w.extractLsb' 12 4)
      (by simpa [bits] using ⟨h1, h4, h5, h8, h9, hC, hD, hF⟩)
    rw [decode_eq_error_iff_of_opcode rfl rfl, BitVec.ofNat_toNat, BitVec.setWidth_eq, List.all_eq_true]
    exact iff_of_false (fun hall => nomatch hall [] hmem) Bool.false_ne_true

/-! ## Values placed in a word are read back (R73, R98) -/

/-- The number that values make at the places of the variable fields: what `placeFields` adds to `match` (R73). -/
def operandSum (placed : List (Field × Nat)) (values : List Nat) : Nat :=
  (List.zipWith (fun c x => x * 2 ^ c.2) (placed.filter fun c => c.1.isVariable) values).sum

/-- A value for every variable field of a list, each small enough for its field. -/
abbrev ValuesFit (values : List Nat) (fs : List Field) : Prop :=
  List.Forall₂ (fun x f => x < 2 ^ f.width) values (fs.filter Field.isVariable)

section
variable {f : Field} (top : Nat) (fs : List Field)

theorem operandSum_cons_fixed (hf : f.isVariable = false) (values : List Nat) :
    operandSum (placedFrom top (f :: fs)) values = operandSum (placedFrom (top - f.width) fs) values := by
  simp [operandSum, placedFrom, hf]

theorem operandSum_cons_variable (hf : f.isVariable = true) (x : Nat) (xs : List Nat) :
    operandSum (placedFrom top (f :: fs)) (x :: xs) =
      x * 2 ^ (top - f.width) + operandSum (placedFrom (top - f.width) fs) xs := by
  simp [operandSum, placedFrom, hf]

end

/-- The values stay below the highest place. -/
theorem operandSum_lt {fs : List Field} {top : Nat} {values : List Nat} (hw : (fs.map Field.width).sum ≤ top)
    (hfit : ValuesFit values fs) : operandSum (placedFrom top fs) values < 2 ^ top := by
  induction fs generalizing top values with
  | nil => simp [operandSum, placedFrom]
  | cons f fs ih =>
    rw [List.map_cons, List.sum_cons] at hw
    have hsplit : 2 ^ f.width * 2 ^ (top - f.width) = 2 ^ top := by rw [← pow_add]; congr 1; omega
    cases hf : f.isVariable with
    | false =>
      rw [ValuesFit, List.filter_cons_of_neg (by simp [hf])] at hfit
      rw [operandSum_cons_fixed _ _ hf]
      exact (ih (by omega) hfit).trans_le (Nat.pow_le_pow_right (by decide) (Nat.sub_le ..))
    | true =>
      rw [ValuesFit, List.filter_cons_of_pos hf] at hfit
      obtain _ | ⟨hx, hxs⟩ := hfit
      rw [operandSum_cons_variable _ _ hf, ← hsplit]
      calc _ < _ * 2 ^ (top - f.width) + 2 ^ (top - f.width) := Nat.add_lt_add_left (ih (by omega) hxs) _
        _ = (_ + 1) * 2 ^ (top - f.width) := (Nat.succ_mul ..).symm
        _ ≤ 2 ^ f.width * 2 ^ (top - f.width) := Nat.mul_le_mul_right _ hx

/-- The digit above the lower places is read back. -/
theorem read_digit {x w p : Nat} (hx : x < 2 ^ w) (high : Nat) {low : Nat} (hlow : low < 2 ^ p) :
    ((high * 2 ^ w + x) * 2 ^ p + low) / 2 ^ p % 2 ^ w = x := by
  rw [Nat.mul_comm _ (2 ^ p), Nat.mul_add_div (Nat.two_pow_pos p), Nat.div_eq_of_lt hlow, Nat.add_zero,
    Nat.mul_comm high, Nat.mul_add_mod, Nat.mod_eq_of_lt hx]

/-- Read at the places of the fields, a number whose low `top` bits hold placed values gives those values for the
variable fields and 0 for the Fixed ones, whatever stands above. -/
theorem read_operandSum {fs : List Field} {top : Nat} {values : List Nat} (hw : (fs.map Field.width).sum ≤ top)
    (hfit : ValuesFit values fs) {n high : Nat} (hn : n = high * 2 ^ top + operandSum (placedFrom top fs) values) :
    (((placedFrom top fs).filter fun c => c.1.isVariable).map fun c => n / 2 ^ c.2 % 2 ^ c.1.width) = values ∧
    ∀ c ∈ placedFrom top fs, c.1.isVariable = false → n / 2 ^ c.2 % 2 ^ c.1.width = 0 := by
  induction fs generalizing top values high with
  | nil =>
    cases hfit
    simp [placedFrom]
  | cons f fs ih =>
    rw [List.map_cons, List.sum_cons] at hw
    have hsplit : 2 ^ top = 2 ^ f.width * 2 ^ (top - f.width) := by rw [← pow_add]; congr 1; omega
    have hw' : (fs.map Field.width).sum ≤ top - f.width := by omega
    cases hf : f.isVariable with
    | false =>
      rw [ValuesFit, List.filter_cons_of_neg (by simp [hf])] at hfit
      rw [operandSum_cons_fixed _ _ hf, hsplit, ← Nat.mul_assoc] at hn
      have hhead : n / 2 ^ (top - f.width) % 2 ^ f.width = 0 :=
        hn ▸ read_digit (Nat.two_pow_pos _) high (operandSum_lt hw' hfit)
      simpa [placedFrom, hf, hhead] using ih hw' hfit hn
    | true =>
      rw [ValuesFit, List.filter_cons_of_pos hf] at hfit
      obtain _ | ⟨hx, hxs⟩ := hfit
      rw [operandSum_cons_variable _ _ hf, hsplit, ← Nat.mul_assoc, ← Nat.add_assoc, ← Nat.add_mul] at hn
      have hhead := hn ▸ read_digit hx high (operandSum_lt hw' hxs)
      simpa [placedFrom, hf, hhead] using ih hw' hxs hn

section
variable {v : Variant} {values : List Nat} (hfit : ValuesFit values v.fields)
include hfit

/-- R73. Before the Fixed bits are added, the values stand at their places and the Fixed places are 0. -/
theorem read_ofNat_operandSum :
    extractFields v (BitVec.ofNat 16 (operandSum v.placed values)) = values ∧
    ∀ c ∈ v.placed, c.1.isVariable = false →
      ((BitVec.ofNat 16 (operandSum v.placed values)).extractLsb' c.2 c.1.width).toNat = 0 := by
  have hw : (v.fields.map Field.width).sum ≤ 16 := v.sum_width_fields.le
  have hn : (BitVec.ofNat 16 (operandSum v.placed values)).toNat = 0 * 2 ^ 16 + operandSum v.placed values := by
    rw [BitVec.toNat_ofNat, Variant.placed, Nat.mod_eq_of_lt (operandSum_lt hw hfit), Nat.zero_mul, Nat.zero_add]
  simp only [toNat_extractLsb'_eq_div_mod]
  exact read_operandSum hw hfit hn

/-- R73, R95. `match` is 0 in the variable fields, so the values are read back. -/
theorem extractFields_placeFields : extractFields v (placeFields v values) = values := by
  refine Eq.trans ?_ (read_ofNat_operandSum hfit).1
  rw [extractFields_eq_map_extractLsb', extractFields_eq_map_extractLsb']
  refine List.map_congr_left fun c hc => ?_
  obtain ⟨hmem, hvar⟩ := List.mem_filter.1 hc
  rw [placeFields, BitVec.extractLsb'_or, BitVec.toNat_or, v.matchBits_extractLsb' c hmem,
    Field.constant_of_isVariable hvar, Nat.zero_or]
  rfl

/-- R73, R91. The values are 0 in the Fixed fields, so the constants of `match` stand there. -/
theorem matchesWord_placeFields : v.matchesWord (placeFields v values) = true := by
  refine (v.matchesWord_iff _).2 fun c hc hfixed => ?_
  have hzero := (read_ofNat_operandSum hfit).2 c hc hfixed
  rw [placeFields, BitVec.extractLsb'_or, BitVec.toNat_or, v.matchBits_extractLsb' c hc]
  exact (congrArg (c.1.constant ||| ·) hzero).trans (Nat.or_zero _)

/-- R98 (c), R63. The word selects its template, but for JMP's on RET's word, the one with the value 7. -/
theorem selectTemplate_placeFields_of_ne (h : ¬ (v = .jmp ∧ values = [7])) :
    selectTemplate (placeFields v values) = some v := by
  refine selectTemplate_of_matchesWord (matchesWord_placeFields hfit) fun hv hword => h ⟨hv, ?_⟩
  subst hv
  rw [← extractFields_placeFields hfit, hword]
  decide

end

/-- R63. The word of JMP with the value 7 is RET's. -/
theorem placeFields_jmp_seven : placeFields .jmp [7] = 0xC1C0#16 := by decide

/-- Settles O53: the values and the constants are each read back from the word. -/
theorem placedFieldsAreReadBack : Obligations.PlacedFieldsAreReadBack := by
  intro v values hfit
  refine ⟨extractFields_placeFields hfit, ?_⟩
  split
  next h =>
    obtain ⟨rfl, rfl⟩ := h
    rw [placeFields_jmp_seven, selectTemplate_ret_word]
  next h => exact selectTemplate_placeFields_of_ne hfit h

/-! ## Decoding an encoded instruction (R77) -/

theorem matchesWord_encode (i : Instr) : i.variant.matchesWord (encode i) = true := by
  cases i with
  | addReg dr sr1 sr2 => exact Laws.EncodeMatches.addReg dr sr1 sr2
  | addImm dr sr1 imm5 => exact Laws.EncodeMatches.addImm dr sr1 imm5
  | andReg dr sr1 sr2 => exact Laws.EncodeMatches.andReg dr sr1 sr2
  | andImm dr sr1 imm5 => exact Laws.EncodeMatches.andImm dr sr1 imm5
  | not dr sr => exact Laws.EncodeMatches.not dr sr
  | br nzp off9 => exact Laws.EncodeMatches.br nzp off9
  | ret => exact Laws.EncodeMatches.ret
  | jmp baseR => exact Laws.EncodeMatches.jmp baseR
  | jsr off11 => exact Laws.EncodeMatches.jsr off11
  | jsrr baseR => exact Laws.EncodeMatches.jsrr baseR
  | ld dr off9 => exact Laws.EncodeMatches.ld dr off9
  | ldi dr off9 => exact Laws.EncodeMatches.ldi dr off9
  | ldr dr baseR off6 => exact Laws.EncodeMatches.ldr dr baseR off6
  | lea dr off9 => exact Laws.EncodeMatches.lea dr off9
  | st sr off9 => exact Laws.EncodeMatches.st sr off9
  | sti sr off9 => exact Laws.EncodeMatches.sti sr off9
  | str sr baseR off6 => exact Laws.EncodeMatches.str sr baseR off6
  | trap vect8 => exact Laws.EncodeMatches.trap vect8
  | rti => exact Laws.EncodeMatches.rti

theorem regAt_eq_toFin (lo : Nat) (w : Word) : regAt lo w = (w.extractLsb' lo 3).toFin := rfl

/-- R53. A register's three bits give its index back. -/
theorem toFin_regBits (r : Reg) : (regBits r).toFin = r :=
  Fin.ext (Nat.mod_eq_of_lt r.isLt)

/-- R73, R95. Each place of a concatenation holds the part written there. -/
theorem extract_encode (i : Instr) : extract i.variant (encode i) = i := by
  cases i <;>
    simp (disch := decide) only [Instr.variant, extract, encode, regAt_eq_toFin, toFin_regBits, Nat.reduceSub,
      BitVec.extractLsb'_append_eq_of_le, BitVec.extractLsb'_append_eq_of_add_le, BitVec.extractLsb'_eq_self]

/-- R77. The template is selected from the word, and the operands are extracted from it. -/
theorem decode_encode_of_ne {i : Instr} (hi : i ≠ .jmp 7) : decode (encode i) = .ok i := by
  have hsel : selectTemplate (encode i) = some i.variant := by
    refine selectTemplate_of_matchesWord (matchesWord_encode i) fun hv hword => hi ?_
    rw [← extract_encode i, hv, hword]
    decide
  rw [decode_of_selectTemplate hsel, extract_encode]

theorem wellFormed_eq_false_iff (i : Instr) : i.wellFormed = false ↔ i = .jmp 7 := by
  cases i with
  | jmp baseR => simp [Instr.wellFormed]
  | _ => exact ⟨nofun, nofun⟩

/-- Settles O40: only `jmp R7` shares its word with another template, RET, and both jump through R7. -/
theorem decodeOfEncodeIsIdentity : Obligations.DecodeOfEncodeIsIdentity := by
  refine ⟨fun i hwf => decode_encode_of_ne ?_, fun i => (wellFormed_eq_false_iff i).1, by decide, fun _ => rfl⟩
  rintro rfl
  cases hwf

end Sys2Proof
end

section
/-! PROOF. The encoding family, assembler side (spec/30_encoding.md R70 to R74). What encodes for a field fits it and
reads back as the integer or label it came from, and a line's result is that of its template. -/

namespace Sys2Proof.Machine

/-! ## The bits of an integer (R52, R72) -/

theorem fieldBits_lt (w : Nat) (x : Int) : fieldBits w x < 2 ^ w := by
  have hpos : (0 : Int) < 2 ^ w := Int.pow_pos (by decide)
  have hlt := Int.emod_lt_of_pos x hpos
  rw [fieldBits, Int.toNat_lt (Int.emod_nonneg _ hpos.ne')]
  exact_mod_cast hlt

/-- R72. The bits of an integer are its residue's, so of a negative one its two's complement. -/
theorem ofNat_fieldBits (w : Nat) (x : Int) : BitVec.ofNat w (fieldBits w x) = BitVec.ofInt w x := by
  refine BitVec.eq_of_toNat_eq ?_
  rw [BitVec.toNat_ofNat, Nat.mod_eq_of_lt (fieldBits_lt w x), BitVec.toNat_ofInt]
  simp [fieldBits]

/-- R52, R72. An integer in the signed range of its width reads back from its bits. -/
theorem toInt_ofNat_fieldBits {w : Nat} {x : Int} (hw : 1 ≤ w) (hlo : -(2 ^ (w - 1) : Int) ≤ x)
    (hhi : x ≤ 2 ^ (w - 1) - 1) : (BitVec.ofNat w (fieldBits w x)).toInt = x := by
  rw [ofNat_fieldBits, BitVec.toInt_ofInt_eq_self hw hlo (by omega)]

/-- R52, R72. So does one in the unsigned range. -/
theorem natCast_fieldBits {w : Nat} {x : Int} (hlo : 0 ≤ x) (hhi : x ≤ 2 ^ w - 1) : (fieldBits w x : Int) = x := by
  rw [fieldBits, Int.emod_eq_of_lt hlo (by omega), Int.toNat_of_nonneg hlo]

theorem encodeInRange_of_mem {signed : Bool} {w : Nat} (tooFar : Int → Int → DiagnosticKind) {x : Int}
    (h : (legalRange signed w).1 ≤ x ∧ x ≤ (legalRange signed w).2) :
    encodeInRange signed w tooFar x = .ok (fieldBits w x) :=
  if_pos h

theorem encodeInRange_of_notMem {signed : Bool} {w : Nat} (tooFar : Int → Int → DiagnosticKind) {x : Int}
    (h : ¬ ((legalRange signed w).1 ≤ x ∧ x ≤ (legalRange signed w).2)) :
    encodeInRange signed w tooFar x = .error (tooFar (legalRange signed w).1 (legalRange signed w).2) :=
  if_neg h

/-- Only an integer in the range encodes, and to its bits. -/
theorem of_encodeInRange_eq_ok {signed : Bool} {w : Nat} {tooFar : Int → Int → DiagnosticKind} {x : Int} {b : Nat}
    (h : encodeInRange signed w tooFar x = .ok b) :
    ((legalRange signed w).1 ≤ x ∧ x ≤ (legalRange signed w).2) ∧ b = fieldBits w x := by
  by_cases hx : (legalRange signed w).1 ≤ x ∧ x ≤ (legalRange signed w).2
  · exact ⟨hx, (Except.ok.inj ((encodeInRange_of_mem tooFar hx).symm.trans h)).symm⟩
  · cases (encodeInRange_of_notMem tooFar hx).symm.trans h

/-! ## One field (R72) -/

section
variable {ctx : AsmContext} {token : Token} {w : Nat}

theorem encodeField_immediate {x : Int} (signed : Bool) (h : ctx.parseLiteral token.text = some x) :
    encodeField ctx ⟨.immediate signed, w⟩ token = encodeInRange signed w .immediateOutOfRange x := by
  simp [encodeField, h]

theorem encodeField_label {target : Word} (h : ctx.labelTable token.text = some target) :
    encodeField ctx ⟨.label, w⟩ token = encodeInRange true w .labelOutOfRange (labelOffset ctx.address target) := by
  simp [encodeField, h]

end

/-- Settles O54: in the range the bits read back, outside it the range itself is reported. -/
theorem immediateEncodesExactlyItsRange : Obligations.ImmediateEncodesExactlyItsRange := by
  intro ctx token x w hx hw
  rw [encodeField_immediate true hx, encodeField_immediate false hx]
  refine ⟨fun h => ?_, fun h => encodeInRange_of_notMem _ h, fun h => ?_, fun h => encodeInRange_of_notMem _ h⟩
  · exact ⟨_, encodeInRange_of_mem _ h, fieldBits_lt w x, toInt_ofNat_fieldBits hw h.1 h.2⟩
  · exact ⟨_, encodeInRange_of_mem _ h, fieldBits_lt w x, natCast_fieldBits h.1 h.2⟩

/-- R72, R154 a. From the advanced pc the label's offset wraps to the label. -/
theorem wrapSum_labelOffset (address target : Word) :
    wrapSum (address + 1#16) (labelOffset address target) = target := by
  have hadv : address + 1#16 = wrapSum address 1 := add_ofInt_eq_wrapSum address 1
  have hsum : (address.toNat : Int) + (1 + labelOffset address target) = (target.toNat : Int) := by
    rw [labelOffset]
    omega
  rw [hadv, wrapSum_wrapSum, wrapSum, hsum, BitVec.ofInt_natCast, BitVec.ofNat_toNat, BitVec.setWidth_eq]

/-- Settles O55: the encoded bits read as the label's offset, which the executor adds to the advanced pc. -/
theorem encodedLabelReachesItsTarget : Obligations.EncodedLabelReachesItsTarget := by
  intro ctx token target w b s hw _ htarget hb hpc
  obtain ⟨⟨hlo, hhi⟩, rfl⟩ := of_encodeInRange_eq_ok ((encodeField_label htarget).symm.trans hb)
  rw [State.pcRelative_eq_wrapSum, toInt_ofNat_fieldBits hw hlo hhi, hpc, wrapSum_labelOffset]

/-- R53, R72. What encodes for a variable field fits it. -/
theorem encodeField_lt {ctx : AsmContext} {f : Field} {token : Token} {x : Nat} (hvar : f.isVariable = true)
    (hreg : f.kind = .register → f.width = 3) (h : encodeField ctx f token = .ok x) : x < 2 ^ f.width := by
  obtain ⟨kind, width⟩ := f
  cases kind with
  | fixed value => cases hvar
  | register =>
    obtain rfl : width = 3 := hreg rfl
    simp only [encodeField] at h
    split at h
    · next r _ =>
      obtain rfl := Except.ok.inj h
      exact r.isLt
    · split at h <;> cases h
  | immediate | label =>
    simp only [encodeField] at h
    split at h
    · obtain ⟨-, rfl⟩ := of_encodeInRange_eq_ok h
      exact fieldBits_lt ..
    · cases h

/-! ## One line (R71, R73) -/

/-- R73. The values of the operand tokens fit the fields they are encoded for. -/
theorem encodeOperands_fit {ctx : AsmContext} {fs : List Field} (hvar : ∀ f ∈ fs, f.isVariable = true)
    (hreg : ∀ f ∈ fs, f.kind = .register → f.width = 3) {tokens : List Token} {values : List Nat}
    (h : encodeOperands ctx fs tokens = .ok values) : List.Forall₂ (fun x f => x < 2 ^ f.width) values fs := by
  induction fs generalizing tokens values with
  | nil =>
    obtain rfl := Except.ok.inj h
    exact .nil
  | cons f fs ih =>
    rw [List.forall_mem_cons] at hvar hreg
    cases tokens with
    | nil => cases h
    | cons token tokens =>
      rw [encodeOperands] at h
      split at h
      · cases h
      · next x hx =>
        split at h
        · cases h
        · next xs hxs =>
          obtain rfl := Except.ok.inj h
          exact .cons (encodeField_lt hvar.1 hreg.1 hx) (ih hvar.2 hreg.2 hxs)

/-- R73. A template's word is its fitting values at their places. -/
theorem exists_of_encodeTemplate {ctx : AsmContext} {v : Variant} {tokens : List Token} {w : Word}
    (h : encodeTemplate ctx v tokens = .ok w) : ∃ values, ValuesFit values v.fields ∧ w = placeFields v values := by
  rw [encodeTemplate] at h
  split at h
  · cases h
  · next values hvalues =>
    refine ⟨values, encodeOperands_fit ?_ ?_ hvalues, (Except.ok.inj h).symm⟩
    · exact fun f hf => (List.mem_filter.1 hf).2
    · exact fun f hf => v.width_of_register f (List.mem_filter.1 hf).1

/-- R71 step 3. The template answered is a candidate, and the word is its own. -/
theorem of_tryCandidates_eq_ok {ctx : AsmContext} {tokens : List Token} {vs : List Variant} {worst : DiagnosticKind}
    {v : Variant} {w : Word} (h : tryCandidates ctx tokens vs worst = .ok (v, w)) :
    v ∈ vs ∧ encodeTemplate ctx v tokens = .ok w := by
  induction vs generalizing worst with
  | nil => cases h
  | cons u us ih =>
    rw [tryCandidates] at h
    split at h
    · next hu =>
      cases h
      exact ⟨List.mem_cons_self, hu⟩
    · exact (ih h).imp_left (List.mem_cons_of_mem u)

/-- R71. The template answered has the line's mnemonic and operand count, and the word is its own. -/
theorem of_assembleLine_eq_ok {ctx : AsmContext} {mnemonic : Token} {tokens : List Token} {v : Variant} {w : Word}
    (h : assembleLine ctx mnemonic tokens = .ok (v, w)) :
    v.mnemonic = mnemonic.text ∧ v.arity = tokens.length ∧ encodeTemplate ctx v tokens = .ok w := by
  rw [assembleLine] at h
  split at h
  · cases h
  · split at h
    · cases h
    · next u us hcandidates =>
      have hmem : v ∈ u :: us ∧ encodeTemplate ctx v tokens = .ok w := by
        split at h
        · next hu =>
          cases h
          exact ⟨List.mem_cons_self, hu⟩
        · exact (of_tryCandidates_eq_ok h).imp_left (List.mem_cons_of_mem u)
      obtain ⟨hv, hencode⟩ := hmem
      obtain ⟨hnamed, harity⟩ := List.mem_filter.1 (hcandidates ▸ hv)
      exact ⟨beq_iff_eq.1 (List.mem_filter.1 hnamed).2, beq_iff_eq.1 harity, hencode⟩

/-- Settles O56: the line's word is built from fitting values, which select its template as O53 has it. -/
theorem assembledLineSelectsItsTemplate : Obligations.AssembledLineSelectsItsTemplate := by
  intro ctx mnemonic tokens v w h
  obtain ⟨hmnemonic, harity, hencode⟩ := of_assembleLine_eq_ok h
  obtain ⟨values, hfit, rfl⟩ := exists_of_encodeTemplate hencode
  refine ⟨hmnemonic, harity, ?_⟩
  by_cases hjmp : v = .jmp ∧ values = [7]
  · obtain ⟨rfl, rfl⟩ := hjmp
    exact .inr ⟨rfl, placeFields_jmp_seven, placeFields_jmp_seven ▸ selectTemplate_ret_word⟩
  · exact .inl (selectTemplate_placeFields_of_ne hfit hjmp)

/-! ## Positions (R70) -/

section
variable {ctx : AsmContext}

/-- R70, R72. The encoder reads a token's text alone. -/
theorem encodeField_congr (f : Field) {token token' : Token} (h : token.text = token'.text) :
    encodeField ctx f token = encodeField ctx f token' := by
  simp only [encodeField, h]

variable {tokens tokens' : List Token} (htext : tokens.map Token.text = tokens'.map Token.text)
include htext

theorem encodeOperands_congr (fs : List Field) : encodeOperands ctx fs tokens = encodeOperands ctx fs tokens' := by
  induction fs generalizing tokens tokens' with
  | nil => rfl
  | cons f fs ih =>
    match tokens, tokens', htext with
    | [], [], _ => rfl
    | token :: tokens, token' :: tokens', htext =>
      obtain ⟨hhead, htail⟩ := List.cons.inj htext
      rw [encodeOperands, encodeOperands, encodeField_congr f hhead, ih htail]

theorem encodeTemplate_congr (v : Variant) : encodeTemplate ctx v tokens = encodeTemplate ctx v tokens' := by
  rw [encodeTemplate, encodeTemplate, encodeOperands_congr htext]

theorem tryCandidates_congr (vs : List Variant) (worst : DiagnosticKind) :
    tryCandidates ctx tokens vs worst = tryCandidates ctx tokens' vs worst := by
  induction vs generalizing worst with
  | nil => rfl
  | cons v vs ih => simp only [tryCandidates, encodeTemplate_congr htext v, ih]

end

/-- Settles O58: the texts alone reach the candidates, their count and their encoding. -/
theorem tokenPositionsChangeNoEncoding : Obligations.TokenPositionsChangeNoEncoding := by
  intro ctx mnemonic mnemonic' tokens tokens' hmnemonic htext
  have hlength : tokens.length = tokens'.length := by simpa using congrArg List.length htext
  simp only [assembleLine, hmnemonic, hlength, encodeTemplate_congr htext, tryCandidates_congr htext]

/-! ## All lines (R74) -/

section
variable (file : SourceFile) (before after : List Line) (l : Line)

theorem assembleLines_append_cons : assembleLines file (before ++ l :: after) =
    assembleLines file before ++ file.assemble l :: assembleLines file after := by
  simp only [assembleLines, List.map_append, List.map_cons]

theorem diagnostics_append_cons : diagnostics file (before ++ l :: after) =
    diagnostics file before ++ ((diagnosticOf (file.assemble l)).toList ++ diagnostics file after) := by
  rw [diagnostics, assembleLines_append_cons, List.filterMap_append, List.filterMap_cons]
  cases diagnosticOf (file.assemble l) <;> rfl

end

/-- Settles O57: the results are those of the lines one by one, and a bad line's is its one record. -/
theorem eachBadLineGivesOneDiagnostic : Obligations.EachBadLineGivesOneDiagnostic := by
  intro file before after l
  refine ⟨fun r hr => ?_, fun kind hkind => ⟨file.diagnostic l kind, rfl, rfl, rfl, rfl, rfl, ?_⟩⟩
  · have hok : file.assemble l = .ok r := by rw [SourceFile.assemble, hr]; rfl
    rw [assembleLines_append_cons, diagnostics_append_cons, hok]
    exact ⟨rfl, rfl⟩
  · have herror : file.assemble l = .error (file.diagnostic l kind) := by rw [SourceFile.assemble, hkind]; rfl
    rw [assembleLines_append_cons, diagnostics_append_cons, herror]
    exact ⟨rfl, rfl⟩

end Sys2Proof.Machine
end


section
/-! PROOF. The decoder family (spec/40_decoder.md R90 to R99). A word is the encoding of what it decodes to; the forms
R99 allows the selector to take select one template; and the catalog's order reaches no effect. -/

namespace Sys2Proof

/-! ## Encoding a decoded instruction (R95, R73) -/

/-- R90, R95. A word decodes to what its template's places hold. -/
theorem extract_variant_of_decode {w : Word} {i : Instr} (h : decode w = .ok i) : extract i.variant w = i := by
  cases hsel : selectTemplate w with
  | none => simp [decode, hsel] at h
  | some v =>
    obtain rfl : extract v w = i := Except.ok.inj ((decode_of_selectTemplate hsel).symm.trans h)
    rw [Machine.variant_extract]

/-- R55, R91, R95. A template's constants and the values extracted are all that a word of it holds. -/
theorem eq_of_extract_eq {v : Variant} {x y : Word} (hx : v.matchesWord x = true) (hy : v.matchesWord y = true)
    (h : extract v x = extract v y) : x = y := by
  refine eq_of_forall_placed v fun c hc => BitVec.eq_of_toNat_eq ?_
  cases hvar : c.1.isVariable with
  | false => rw [(v.matchesWord_iff x).1 hx c hc hvar, (v.matchesWord_iff y).1 hy c hc hvar]
  | true =>
    have hfields := congrArg Instr.fieldValues h
    simp only [fieldValues_extract, extractFields_eq_map_extractLsb'] at hfields
    exact List.map_inj_left.1 hfields c (List.mem_filter.2 ⟨hc, hvar⟩)

/-- R73, R95. The encoding is a word of the same template that holds the same values. -/
theorem encode_of_decode {w : Word} {i : Instr} (h : decode w = .ok i) : encode i = w := by
  refine eq_of_extract_eq (matchesWord_encode i) (Machine.matchesWord_of_decode h) ?_
  rw [extract_encode, extract_variant_of_decode h]

/-- R63. No word decodes to `jmp R7`: it would be that instruction's encoding, which decodes as RET. -/
theorem wellFormed_of_decode {w : Word} {i : Instr} (h : decode w = .ok i) : i.wellFormed = true := by
  refine Bool.of_not_eq_false fun hwf => ?_
  obtain rfl := (wellFormed_eq_false_iff i).1 hwf
  obtain rfl := encode_of_decode h
  exact absurd h (by decide)

/-- Settles O41: constants and values are the word's own, and RET takes the one word of `jmp R7`. -/
theorem encodeOfDecodeIsIdentity : Obligations.EncodeOfDecodeIsIdentity := fun _ _ h =>
  ⟨encode_of_decode h, wellFormed_of_decode h⟩

/-! ## The decision tree (R61, R99) -/

/-- The templates of opcode `k` in catalog order, each with its Fixed fields below the opcode (R61, R62). -/
def opcodeRows (k : Nat) : List (Variant × List (Nat × Nat × Nat)) :=
  (templatesOfOpcode (BitVec.ofNat 4 k)).map fun v => (v, v.fixedBelowOpcode)

/-- The template of the first row whose constants the word holds. -/
def selectRow (w : Word) : List (Variant × List (Nat × Nat × Nat)) → Option Variant
  | [] => none
  | r :: rows => if ∀ p ∈ r.2, (w.extractLsb' p.1 p.2.1).toNat = p.2.2 then some r.1 else selectRow w rows

/-- R91. Among templates of the word's own opcode, the first that matches is that of the first row the word holds. -/
theorem selectRow_map_fixedBelowOpcode {w : Word} {vs : List Variant}
    (h : ∀ v ∈ vs, v.matchBits.extractLsb' 12 4 = w.extractLsb' 12 4) :
    selectRow w (vs.map fun v => (v, v.fixedBelowOpcode)) = vs.find? fun v => v.matchesWord w := by
  induction vs with
  | nil => rfl
  | cons v vs ih =>
    obtain ⟨hv, hvs⟩ := List.forall_mem_cons.1 h
    have hrow : v.matchesWord w = true ↔ ∀ p ∈ v.fixedBelowOpcode, (w.extractLsb' p.1 p.2.1).toNat = p.2.2 := by
      simp only [Variant.matchesWord_eq_all_fixedBelowOpcode hv, List.all_eq_true, beq_iff_eq]
    rw [List.map_cons, selectRow, ih hvs, List.find?_cons]
    simp only [← hrow]
    cases v.matchesWord w <;> rfl

/-- R61. The scan may pass over the templates of every opcode but the word's. -/
theorem selectTemplate_eq_find?_templatesOfOpcode (w : Word) :
    selectTemplate w = (templatesOfOpcode (w.extractLsb' 12 4)).find? fun v => v.matchesWord w := by
  rw [templatesOfOpcode, List.find?_filter, selectTemplate, selectFrom]
  congr 1
  funext v
  cases hm : v.matchesWord w with
  | false => simp
  | true => simp [Variant.opcodeBits_of_matchesWord hm]

/-- R61, R62. The rows of the word's opcode decide its template. -/
theorem selectTemplate_eq_selectRow {w : Word} {k : Nat} {rows : List (Variant × List (Nat × Nat × Nat))}
    (hk : (w.extractLsb' 12 4).toNat = k) (hrows : opcodeRows k = rows) : selectTemplate w = selectRow w rows := by
  subst hk hrows
  rw [opcodeRows, BitVec.ofNat_toNat, BitVec.setWidth_eq, selectTemplate_eq_find?_templatesOfOpcode]
  exact (selectRow_map_fixedBelowOpcode fun v hv => beq_iff_eq.1 (List.mem_filter.1 hv).2).symm

section
variable {w : Word} {k : Nat} {v v' : Variant} (hk : (w.extractLsb' 12 4).toNat = k)
include hk

/-- An opcode whose one template has no Fixed field below it: every word of it is selected. -/
theorem selectTemplate_of_rows_free (hrows : opcodeRows k = [(v, [])]) : selectTemplate w = some v := by
  rw [selectTemplate_eq_selectRow hk hrows, selectRow, if_pos (List.forall_mem_nil _)]

/-- An opcode whose one template has one Fixed field below it. -/
theorem selectTemplate_of_rows_single {lo len c : Nat} (hrows : opcodeRows k = [(v, [(lo, len, c)])]) :
    selectTemplate w = if (w.extractLsb' lo len).toNat = c then some v else none := by
  rw [selectTemplate_eq_selectRow hk hrows]
  simp only [selectRow, List.forall_mem_singleton]

/-- ADD and AND: the two forms differ in bit 5, so either may be tested first. -/
theorem selectTemplate_of_rows_reg_imm (hrows : opcodeRows k = [(v, [(3, 3, 0)]), (v', [(5, 1, 1)])]) :
    selectTemplate w = if (w.extractLsb' 5 1).toNat = 1 then some v'
      else if (w.extractLsb' 3 3).toNat = 0 then some v else none := by
  rw [selectTemplate_eq_selectRow hk hrows]
  simp only [selectRow, List.forall_mem_singleton]
  apply ite_ite_comm
  simp only [toNat_extractLsb'_eq_div_mod]
  omega

/-- JSR and JSRR: the tree reads JSRR's two fields from bit 9 up, 0 in bit 11 and 0 in bits 10 and 9, as one. -/
theorem selectTemplate_of_rows_jsr_jsrr
    (hrows : opcodeRows k = [(v, [(11, 1, 1)]), (v', [(11, 1, 0), (9, 2, 0), (0, 6, 0)])]) :
    selectTemplate w = if (w.extractLsb' 11 1).toNat = 1 then some v
      else if (w.extractLsb' 9 3).toNat = 0 ∧ (w.extractLsb' 0 6).toNat = 0 then some v' else none := by
  have hbits : (w.extractLsb' 9 3).toNat = 0 ↔ (w.extractLsb' 11 1).toNat = 0 ∧ (w.extractLsb' 9 2).toNat = 0 := by
    simp only [toNat_extractLsb'_eq_div_mod]
    omega
  rw [selectTemplate_eq_selectRow hk hrows]
  simp [selectRow, hbits, and_assoc, -BitVec.extractLsb'_toNat]

/-- RET and JMP: the tree tests the fields they share, then the base register. -/
theorem selectTemplate_of_rows_ret_jmp
    (hrows : opcodeRows k = [(v, [(9, 3, 0), (6, 3, 7), (0, 6, 0)]), (v', [(9, 3, 0), (0, 6, 0)])]) :
    selectTemplate w = if (w.extractLsb' 9 3).toNat = 0 ∧ (w.extractLsb' 0 6).toNat = 0 then
      (if (w.extractLsb' 6 3).toNat = 7 then some v else some v') else none := by
  rw [selectTemplate_eq_selectRow hk hrows]
  simp only [selectRow, List.forall_mem_cons, List.not_mem_nil, false_implies, implies_true, and_true]
  split_ifs <;> tauto

end

/-- R99. Opcode by opcode, the tree's tests are those of the opcode's rows; xD, the last branch, has no row. -/
theorem selectByOpcode_eq_selectTemplate (w : Word) : selectByOpcode w = selectTemplate w := by
  unfold selectByOpcode
  split
  next h => exact (selectTemplate_of_rows_free h rfl).symm
  next h => exact (selectTemplate_of_rows_reg_imm h rfl).symm
  next h => exact (selectTemplate_of_rows_free h rfl).symm
  next h => exact (selectTemplate_of_rows_free h rfl).symm
  next h => exact (selectTemplate_of_rows_jsr_jsrr h rfl).symm
  next h => exact (selectTemplate_of_rows_reg_imm h rfl).symm
  next h => exact (selectTemplate_of_rows_free h rfl).symm
  next h => exact (selectTemplate_of_rows_free h rfl).symm
  next h => exact (selectTemplate_of_rows_single h rfl).symm
  next h => exact (selectTemplate_of_rows_single h rfl).symm
  next h => exact (selectTemplate_of_rows_free h rfl).symm
  next h => exact (selectTemplate_of_rows_free h rfl).symm
  next h => exact (selectTemplate_of_rows_ret_jmp h rfl).symm
  next h => exact (selectTemplate_of_rows_free h rfl).symm
  next h => exact (selectTemplate_of_rows_single h rfl).symm
  next h0 h1 h2 h3 h4 h5 h6 h7 h8 h9 hA hB hC hE hF =>
    have hlt := (w.extractLsb' 12 4).isLt
    have hD : (w.extractLsb' 12 4).toNat = 0xD := by
      simp only [imp_false] at *
      omega
    exact (selectTemplate_eq_selectRow (rows := []) hD rfl).symm

/-! ## The comparators with a priority encoder (R99) -/

/-- In a list whose templates are numbered from `k` up, the position of the first comparator set is the number of the
template the scan stops at. -/
theorem priorityEncodeFrom_map {vs : List Variant} {k : Nat} (h : vs.map Variant.order = List.range' k vs.length)
    (p : Variant → Bool) : priorityEncodeFrom k (vs.map p) = (vs.find? p).map Variant.order := by
  induction vs generalizing k with
  | nil => rfl
  | cons v vs ih =>
    obtain ⟨hv, hvs⟩ : v.order = k ∧ vs.map Variant.order = List.range' (k + 1) vs.length := by
      simpa [List.range'_succ] using h
    rw [List.map_cons, priorityEncodeFrom, List.find?_cons, ih hvs]
    cases p v with
    | true => exact congrArg some hv.symm
    | false => rfl

/-- R60 `#`. The catalog is numbered from 1 up. -/
theorem map_order_catalog : catalog.map Variant.order = List.range' 1 catalog.length := by decide

/-- Settles O42: the tree tests the opcode's Fixed fields, and the encoder counts as the catalog is numbered. -/
theorem selectorFormsAgree : Obligations.SelectorFormsAgree := fun w =>
  ⟨selectByOpcode_eq_selectTemplate w, priorityEncodeFrom_map map_order_catalog fun v => v.matchesWord w⟩

/-! ## The order of the catalog (R63, R93) -/

theorem matchesWord_of_selectFrom {cat : List Variant} {v : Variant} {w : Word} (h : selectFrom cat w = some v) :
    v.matchesWord w = true :=
  List.find?_some (p := fun u : Variant => u.matchesWord w) h

theorem isSome_selectFrom_of_perm {cat cat' : List Variant} (h : cat.Perm cat') (w : Word) :
    (selectFrom cat w).isSome = (selectFrom cat' w).isSome := by
  rw [Bool.eq_iff_iff, selectFrom, selectFrom, List.find?_isSome, List.find?_isSome]
  simp only [h.mem_iff]

/-- R63, R132. On the word they share, RET and JMP both jump through R7. -/
theorem exec_extract_ret_word {v : Variant} (hv : v ∈ [.ret, .jmp]) (s : Machine.State) :
    Machine.exec (extract v 0xC1C0#16) s = Machine.exec .ret s := by
  obtain rfl | rfl : v = .ret ∨ v = .jmp := by simpa using hv
  · rfl
  · rfl

/-- R93. Whichever matching template is taken, the effect is the same. -/
theorem exec_extract_eq_of_matchesWord {v v' : Variant} {w : Word} (h : v.matchesWord w = true)
    (h' : v'.matchesWord w = true) (s : Machine.State) :
    Machine.exec (extract v w) s = Machine.exec (extract v' w) s := by
  by_cases hvv' : v = v'
  · rw [hvv']
  · obtain ⟨rfl, hv, hv'⟩ := overlap_of_matchesWord hvv' h h'
    rw [exec_extract_ret_word hv, exec_extract_ret_word hv']

/-- Settles O48: both catalogs hold the same templates, and any two that match a word have one effect on it. -/
theorem catalogOrderChangesNoEffect : Obligations.CatalogOrderChangesNoEffect := fun _ w hperm =>
  ⟨isSome_selectFrom_of_perm hperm w, fun _ _ hv hv' =>
    exec_extract_eq_of_matchesWord (matchesWord_of_selectFrom hv) (matchesWord_of_selectFrom hv')⟩

end Sys2Proof
end

section
/-! PROOF. The ALU family (spec/41_alu.md R110 to R116). `setcc` is read in the three forms the statements use: the number
ranges of R110, exactly one flag, and the sign of a signed number. Every ADD, AND and NOT is then one result; what is
left of each statement is its word, the illegal words beside it, and the arithmetic of the value. -/

namespace Sys2Proof.Machine

/-! ## `setcc` (R110) -/

/-- R110. N tells the values x8000 to xFFFF. -/
theorem setcc_n_iff (v : Word) : (setcc v).n = true ↔ 0x8000 ≤ v.toNat := by
  have hmsb : (setcc v).n = v.msb := (BitVec.msb_eq_getLsbD_last v).symm
  rw [hmsb, BitVec.msb_eq_decide, decide_eq_true_iff]

/-- R110. Z tells the value x0000. -/
theorem setcc_z_iff (v : Word) : (setcc v).z = true ↔ v.toNat = 0 := by
  rw [setcc, beq_iff_eq, ← BitVec.toNat_inj]
  rfl

/-- R110. P is set exactly where neither N nor Z is. -/
theorem setcc_p_iff_not (v : Word) : (setcc v).p = true ↔ ¬ (setcc v).n = true ∧ ¬ (setcc v).z = true := by
  simp [setcc]

/-- R110. P tells the values x0001 to x7FFF. -/
theorem setcc_p_iff (v : Word) : (setcc v).p = true ↔ 1 ≤ v.toNat ∧ v.toNat ≤ 0x7FFF := by
  rw [setcc_p_iff_not, setcc_n_iff, setcc_z_iff]
  omega

/-- R110. The flags of `setcc` tell the sign of the value read as a signed number. -/
theorem flagsTellSign_setcc (v : Word) : FlagsTellSign v (setcc v) := by
  rw [FlagsTellSign, setcc_n_iff, setcc_z_iff, setcc_p_iff, BitVec.toInt_eq_toNat_cond]
  have := v.isLt
  split <;> omega

/-! ## The setcc group (R110, R19) -/

/-- R110, R19. The variants that call `setcc` are the writers of the flags but RTI. -/
theorem writesFlags_of_mem_setcc_group :
    ∀ v ∈ [Variant.addReg, .addImm, .andReg, .andImm, .not, .ld, .ldi, .ldr, .lea],
      writesFlags v = true ∧ v ≠ .rti := by
  decide

/-- R19. The variants that leave the flags alone. -/
theorem not_writesFlags_of_mem_flag_keepers :
    ∀ v ∈ [Variant.br, .ret, .jmp, .jsr, .jsrr, .st, .sti, .str, .trap], writesFlags v = false ∧ v ≠ .rti := by
  decide

theorem exists_next_of_ne_rti {i : Instr} (hi : i ≠ .rti) (s : State) : ∃ t, exec i s = .next t :=
  (modeGatesRtiOnly i s s.priv hi).imp fun _ h => h.1

/-- Settles O20: the ranges of `setcc`, and the two groups by the flag table, which RTI is left out of. -/
theorem setccGroupFlagsFollowValueWritten : Obligations.SetccGroupFlagsFollowValueWritten := by
  refine ⟨fun v => ⟨setcc_n_iff v, setcc_z_iff v, setcc_p_iff v, oneHot_setcc v⟩, fun i s => ⟨?_, ?_⟩⟩
  · intro hv
    obtain ⟨hw, hne⟩ := writesFlags_of_mem_setcc_group i.variant hv
    have hi : i ≠ .rti := ne_of_apply_ne Instr.variant hne
    obtain ⟨t, ht⟩ := exists_next_of_ne_rti hi s
    obtain ⟨dr, hdr, hflags⟩ := flags_of_writesFlags hw hi ht
    exact ⟨t, dr, ht, hdr, hflags⟩
  · intro hv
    obtain ⟨hw, hne⟩ := not_writesFlags_of_mem_flag_keepers i.variant hv
    obtain ⟨t, ht⟩ := exists_next_of_ne_rti (ne_of_apply_ne Instr.variant hne) s
    exact ⟨t, ht, flags_of_not_writesFlags hw ht⟩

/-! ## A result and nothing else (R111 to R115) -/

/-- The operation every ALU meaning ends in has the whole effect the statements of the family ask for. -/
theorem onlyResult_setResult (s : State) (dr : Reg) (v : Word) : OnlyResult dr v s (s.setResult dr v) :=
  ⟨s.reg_setResult_self dr v, flagsTellSign_setcc v, fun _ hq => State.reg_setResult_ne hq, rfl, rfl, fun _ => rfl⟩

/-- An instruction that answers a result answers it under whatever name its value has in a statement. -/
theorem exists_onlyResult {i : Instr} {s : State} {dr : Reg} {v w : Word} (h : exec i s = .next (s.setResult dr v))
    (hv : v = w) : ∃ t, exec i s = .next t ∧ OnlyResult dr w s t :=
  ⟨_, h, hv ▸ onlyResult_setResult s dr v⟩

/-- R115. The complement is the distance to xFFFF. -/
theorem not_eq_ofNat_sub (v : Word) : ~~~ v = BitVec.ofNat 16 (0xFFFF - v.toNat) := by
  apply BitVec.eq_of_toNat_eq
  rw [BitVec.toNat_not, BitVec.toNat_ofNat]
  omega

/-! ## The illegal words beside the ALU's (R64) -/

/-- R64. In the opcodes of ADD and AND, bit 5 clear and bits 4 to 3 not 00 is illegal. -/
theorem decode_eq_error_of_unused_ne {op : BitVec 4} (hop : op ∈ [0b0001#4, 0b0101#4]) (r r1 r2 : BitVec 3)
    {unused : BitVec 2} (h : unused ≠ 0#2) :
    decode (op ++ r ++ r1 ++ 0b0#1 ++ unused ++ r2) = .error .illegalOpcode := by
  have hne : unused.toNat ≠ 0 := fun e => h (BitVec.eq_of_toNat_eq e)
  rw [illegalWordsAreTheTable]
  simp (disch := decide) only [illegalByTable, Nat.reduceSub, BitVec.extractLsb'_append_eq_of_le,
    BitVec.extractLsb'_append_eq_of_add_le, BitVec.extractLsb'_eq_self]
  obtain rfl | rfl : op = 0b0001#4 ∨ op = 0b0101#4 := by simpa using hop
  · simp [hne]
  · simp [hne]

/-- R64. In NOT's opcode, low six bits that are not all ones are illegal. -/
theorem decode_eq_error_of_low_ne (r r1 : BitVec 3) {low : BitVec 6} (h : low ≠ 0b111111#6) :
    decode (0b1001#4 ++ r ++ r1 ++ low) = .error .illegalOpcode := by
  have hne : low.toNat ≠ 63 := fun e => h (BitVec.eq_of_toNat_eq e)
  rw [illegalWordsAreTheTable]
  simp (disch := decide) only [illegalByTable, Nat.reduceSub, BitVec.extractLsb'_append_eq_of_le,
    BitVec.extractLsb'_append_eq_of_add_le, BitVec.extractLsb'_eq_self]
  simp [hne]

/-! ## ADD, AND, NOT (R111 to R115) -/

/-- Settles O1: BitVec's addition is the sum of the numbers modulo 2^16. -/
theorem addRegisterWritesWrappedSum : Obligations.AddRegisterWritesWrappedSum := fun dr sr1 sr2 =>
  ⟨decode_encode_of_ne (i := .addReg dr sr1 sr2) nofun,
    fun _ h => decode_eq_error_of_unused_ne (by decide) _ _ _ h,
    fun s => exists_onlyResult (exec_addReg dr sr1 sr2 s) (BitVec.add_def _ _)⟩

/-- Settles O2: the immediate is added through its signed value. -/
theorem addImmediateWritesWrappedSum : Obligations.AddImmediateWritesWrappedSum := fun dr sr1 imm5 =>
  ⟨decode_encode_of_ne (i := .addImm dr sr1 imm5) nofun,
    fun s => exists_onlyResult (exec_addImm dr sr1 imm5 s) (add_ofInt_eq_wrapSum _ imm5.toInt)⟩

/-- Settles O3: the meaning is the bitwise AND itself. -/
theorem andRegisterWritesBitwiseAnd : Obligations.AndRegisterWritesBitwiseAnd := fun dr sr1 sr2 =>
  ⟨decode_encode_of_ne (i := .andReg dr sr1 sr2) nofun,
    fun _ h => decode_eq_error_of_unused_ne (by decide) _ _ _ h,
    fun s => exists_onlyResult (exec_andReg dr sr1 sr2 s) rfl⟩

/-- Settles O4: sign extension is the sixteen bits of the signed value. -/
theorem andImmediateExtendsBeforeAnd : Obligations.AndImmediateExtendsBeforeAnd := fun dr sr1 imm5 =>
  ⟨decode_encode_of_ne (i := .andImm dr sr1 imm5) nofun,
    fun s => exists_onlyResult (exec_andImm dr sr1 imm5 s) rfl⟩

/-- Settles O5: the complement is taken from xFFFF. -/
theorem notWritesComplement : Obligations.NotWritesComplement := fun dr sr =>
  ⟨decode_encode_of_ne (i := .not dr sr) nofun,
    fun _ h => decode_eq_error_of_low_ne _ _ h,
    fun s => exists_onlyResult (exec_not dr sr s) (not_eq_ofNat_sub _)⟩

end Sys2Proof.Machine
end

section
/-! PROOF. The control-transfer family (spec/42_control.md R130 to R135). BR taken, RET and JMP are one jump; JSR, JSRR
and TRAP are one linking jump. What is left of each statement is its word and the name it gives the target. -/

namespace Sys2Proof.Machine

/-! ## A jump, linking or not, and nothing else (R130 to R134) -/

theorem onlyJump_setPc (s : State) (target : Word) : OnlyJump target s (s.setPc target) :=
  ⟨rfl, fun _ => rfl, rfl, rfl, fun _ => rfl⟩

theorem onlyLinkedJump_jumpLinking (s : State) (target : Word) : OnlyLinkedJump target s (s.jumpLinking target) :=
  ⟨s.reg_jumpLinking_link target, rfl, fun _ hq => State.reg_jumpLinking_ne hq, rfl, rfl, fun _ => rfl⟩

/-- R130. A branch is taken exactly where a flag that the mask selects is set. -/
theorem branchTaken_iff (nzp : BitVec 3) (f : Flags) : branchTaken nzp f = true ↔
    (nzp.getLsbD 2 = true ∧ f.n = true) ∨ (nzp.getLsbD 1 = true ∧ f.z = true) ∨
      (nzp.getLsbD 0 = true ∧ f.p = true) := by
  simp only [branchTaken, Bool.or_eq_true, Bool.and_eq_true, or_assoc]

/-- Settles O6: the condition of the meaning is the statement's, and the two ways are BR's two equations. -/
theorem branchGoesWhereSelectedFlagSays : Obligations.BranchGoesWhereSelectedFlagSays := by
  refine fun nzp off9 => ⟨decode_encode_of_ne (i := .br nzp off9) nofun, fun s => ?_⟩
  rw [← branchTaken_iff, ← State.pcRelative_eq_wrapSum]
  cases hb : branchTaken nzp s.flags with
  | true => exact ⟨_, exec_br_taken hb off9, fun _ => onlyJump_setPc s _, fun hnot => absurd rfl hnot⟩
  | false => exact ⟨_, exec_br_not_taken hb off9, nofun, fun _ => rfl⟩

/-- Settles O7: RET is the jump to R7's value. -/
theorem retJumpsThroughLinkRegister : Obligations.RetJumpsThroughLinkRegister :=
  ⟨decode_encode_of_ne (i := .ret) nofun, fun s => ⟨_, exec_ret s, onlyJump_setPc s _⟩⟩

/-! ## The words of JMP (R63, R64, R132) -/

/-- R63. JMP's word is its own but for BaseR = 7, where it is RET's. -/
theorem decode_encode_jmp (baseR : Reg) :
    decode (encode (.jmp baseR)) = .ok (if baseR = 7 then .ret else .jmp baseR) := by
  split
  next hbase =>
    obtain ⟨-, -, hret, -⟩ := decodeOfEncodeIsIdentity
    rw [hbase, hret]
  next hbase => exact decode_encode_of_ne fun e => hbase (Instr.jmp.inj e)

/-- R64. In the opcode of RET and JMP, any of bits 11 to 9 or 5 to 0 set is illegal. -/
theorem decode_eq_error_of_jmp_unused_ne (r : BitVec 3) {high : BitVec 3} {low : BitVec 6}
    (h : high ≠ 0#3 ∨ low ≠ 0#6) : decode (0b1100#4 ++ high ++ r ++ low) = .error .illegalOpcode := by
  have hne : high.toNat ≠ 0 ∨ low.toNat ≠ 0 :=
    h.imp (fun hhigh e => hhigh (BitVec.eq_of_toNat_eq e)) fun hlow e => hlow (BitVec.eq_of_toNat_eq e)
  rw [illegalWordsAreTheTable]
  simp (disch := decide) only [illegalByTable, Nat.reduceSub, BitVec.extractLsb'_append_eq_of_le,
    BitVec.extractLsb'_append_eq_of_add_le, BitVec.extractLsb'_eq_self]
  simpa using hne

/-- Settles O8: JMP is the jump to the base register's value, whatever its word is reported as. -/
theorem jmpJumpsThroughBase : Obligations.JmpJumpsThroughBase := fun baseR =>
  ⟨decode_encode_jmp baseR, fun _ _ h => decode_eq_error_of_jmp_unused_ne _ h,
    fun s => ⟨_, exec_jmp baseR s, onlyJump_setPc s _⟩⟩

/-! ## Linking transfers (R133 to R135) -/

/-- Settles O9: JSR is the linking jump to the PC-relative address. -/
theorem jsrLinksAndJumpsRelative : Obligations.JsrLinksAndJumpsRelative := by
  refine fun off11 => ⟨decode_encode_of_ne (i := .jsr off11) nofun, fun s => ?_⟩
  rw [← State.pcRelative_eq_wrapSum]
  exact ⟨_, exec_jsr off11 s, onlyLinkedJump_jumpLinking s _⟩

/-- Settles O10: JSRR is the linking jump to the base register's value in the entry state. -/
theorem jsrrReadsTargetBeforeLinking : Obligations.JsrrReadsTargetBeforeLinking := fun baseR =>
  ⟨decode_encode_of_ne (i := .jsrr baseR) nofun, fun s => ⟨_, exec_jsrr baseR s, onlyLinkedJump_jumpLinking s _⟩⟩

/-- R135 d, R209. The linking transfers and the entry to a handler are one operation, whatever the target. -/
theorem exists_exec_eq_jumpLinking {i : Instr} (hi : i.variant ∈ [.jsr, .jsrr, .trap]) (s : State) :
    ∃ target, exec i s = .next (s.jumpLinking target) := by
  cases i with
  | jsr | jsrr | trap => exact ⟨_, rfl⟩
  | _ => simp [Instr.variant] at hi

/-- Settles O39: RET jumps to the R7 that the transfer linked. -/
theorem linkedTransferReturnsByRet : Obligations.LinkedTransferReturnsByRet := by
  intro i s hi
  obtain ⟨target, hexec⟩ := exists_exec_eq_jumpLinking hi s
  exact ⟨_, _, hexec, exec_ret _, s.reg_jumpLinking_link target⟩

end Sys2Proof.Machine
end

section
/-! PROOF. The load family and LEA (spec/43_load.md R150 to R154). Each meaning is one result, so what is left of each
statement is its word and that the address of the addressing mode is the statement's wrapped sum: the accesses listed and
the value written then name the same address. -/

namespace Sys2Proof.Machine

/-- R151, R154 b. The pointer is the word at the wrapped sum. -/
theorem State.indirect_eq_read_wrapSum (s : State) (off9 : BitVec 9) :
    s.indirect off9 = s.read (wrapSum s.pc off9.toInt) := by
  rw [State.indirect, State.pcRelative_eq_wrapSum]

/-- Settles O11: the one address LD reads is the PC-relative one. -/
theorem ldLoadsPcRelative : Obligations.LdLoadsPcRelative := by
  refine fun dr off9 => ⟨decode_encode_of_ne (i := .ld dr off9) nofun, fun s => ?_⟩
  rw [← State.pcRelative_eq_wrapSum]
  exact ⟨rfl, _, exec_ld dr off9 s, onlyResult_setResult s dr _⟩

/-- Settles O12: the pointer is the word at the PC-relative address, and the datum is the word at the pointer. -/
theorem ldiLoadsThroughPointer : Obligations.LdiLoadsThroughPointer := by
  refine fun dr off9 => ⟨decode_encode_of_ne (i := .ldi dr off9) nofun, fun s => ?_⟩
  rw [← State.indirect_eq_read_wrapSum, ← State.pcRelative_eq_wrapSum]
  exact ⟨rfl, _, exec_ldi dr off9 s, onlyResult_setResult s dr _⟩

/-- Settles O13: the address is taken from the base register in the entry state, also where DR is that register. -/
theorem ldrLoadsBasePlusOffset : Obligations.LdrLoadsBasePlusOffset := by
  refine fun dr baseR off6 => ⟨decode_encode_of_ne (i := .ldr dr baseR off6) nofun, fun s => ?_⟩
  rw [← State.baseOffset_eq_wrapSum]
  exact ⟨rfl, _, exec_ldr dr baseR off6 s, onlyResult_setResult s dr _⟩

/-- Settles O14: the PC-relative address is itself the value written, and no access is listed. -/
theorem leaWritesAddressAndFlags : Obligations.LeaWritesAddressAndFlags := fun dr off9 =>
  ⟨decode_encode_of_ne (i := .lea dr off9) nofun,
    fun s => ⟨rfl, exists_onlyResult (exec_lea dr off9 s) (s.pcRelative_eq_wrapSum off9)⟩⟩

end Sys2Proof.Machine
end

section
/-! PROOF. The store family (spec/44_store.md R170 to R172). Each meaning is one write, so what is left of each statement
is its word and the wrapped sum that its address, for STI its pointer's address, is. -/

namespace Sys2Proof.Machine

/-- The operation every store ends in has the whole effect the statements of the family ask for. -/
theorem onlyStore_write (s : State) (a v : Word) : OnlyStore a v s (s.write a v) :=
  ⟨⟨s.read_write_self v a, fun _ hb => State.read_write_ne hb⟩, fun _ => rfl, rfl, rfl, rfl⟩

/-- Settles O15: the address ST writes at is the PC-relative one. -/
theorem stStoresPcRelative : Obligations.StStoresPcRelative := fun sr off9 =>
  ⟨decode_encode_of_ne (i := .st sr off9) nofun,
    fun s => ⟨s.pcRelative_eq_wrapSum off9, rfl, _, exec_st sr off9 s, onlyStore_write s _ _⟩⟩

/-- Settles O16: the pointer is the word at the PC-relative address, read before the write that may overwrite it. -/
theorem stiStoresThroughPointer : Obligations.StiStoresThroughPointer := by
  refine fun sr off9 => ⟨decode_encode_of_ne (i := .sti sr off9) nofun, fun s => ?_⟩
  rw [← State.indirect_eq_read_wrapSum, ← State.pcRelative_eq_wrapSum]
  exact ⟨rfl, rfl, _, exec_sti sr off9 s, onlyStore_write s _ _⟩

/-- Settles O17: base and datum are both taken from the entry state, also where SR is the base register. -/
theorem strStoresBasePlusOffset : Obligations.StrStoresBasePlusOffset := fun sr baseR off6 =>
  ⟨decode_encode_of_ne (i := .str sr baseR off6) nofun,
    fun s => ⟨s.baseOffset_eq_wrapSum baseR off6, rfl, _, exec_str sr baseR off6 s, onlyStore_write s _ _⟩⟩

end Sys2Proof.Machine
end

section
/-! PROOF. The system family (spec/45_system.md R185 to R188). TRAP is the linking jump through the vector table. RTI is
one condition on the mode, with the return through the frame on one side and the fault on the other. -/

namespace Sys2Proof.Machine

/-! ## TRAP (R37, R185, R186) -/

/-- R37, R185. The table entry's address is the vector's number. -/
theorem trapEntryAddr_eq_ofNat (vect8 : BitVec 8) : trapEntryAddr vect8 = BitVec.ofNat 16 vect8.toNat := by
  rw [← toNat_trapEntryAddr, BitVec.ofNat_toNat, BitVec.setWidth_eq]

/-- Settles O18: TRAP is the linking jump to the word of the vector's table entry. -/
theorem trapLinksAndEntersHandler : Obligations.TrapLinksAndEntersHandler := by
  refine fun vect8 => ⟨decode_encode_of_ne (i := .trap vect8) nofun, fun s => ?_⟩
  rw [← trapEntryAddr_eq_ofNat]
  exact ⟨_, exec_trap vect8 s, onlyLinkedJump_jumpLinking s _⟩

/-! ## RTI (R187, R188, R202) -/

theorem exec_rti_of_priv {s : State} (h : s.priv = true) : exec .rti s = .next s.returnFromFrame := by
  rw [exec_rti, if_pos h]

theorem exec_rti_of_not_priv {s : State} (h : s.priv = false) :
    exec .rti s = .fault (.privilegeViolation s.instrAddr) := by
  rw [exec_rti, if_neg (Bool.eq_false_iff.1 h)]

/-- R202. The address a fault records is the wrapped sum of the entry pc and -1. -/
theorem State.instrAddr_eq_wrapSum (s : State) : s.instrAddr = wrapSum s.pc (-1) := by
  have hneg : -1#16 = BitVec.ofInt 16 (-1) := by decide
  rw [State.instrAddr, BitVec.sub_eq_add_neg, hneg, add_ofInt_eq_wrapSum]

/-- Settles O19: the two modes are RTI's two equations, and each field of the next state is the frame's. -/
theorem rtiReturnsThroughFrameOrFaults : Obligations.RtiReturnsThroughFrameOrFaults := by
  refine ⟨decode_encode_of_ne (i := .rti) nofun, fun s => ⟨fun hpriv => ?_, fun hpriv => ?_⟩⟩
  · have hword : s.reg 6 + 1#16 = wrapSum (s.reg 6) 1 := add_ofInt_eq_wrapSum (s.reg 6) 1
    have hsp : s.reg 6 + 2#16 = wrapSum (s.reg 6) 2 := add_ofInt_eq_wrapSum (s.reg 6) 2
    rw [← hword, ← hsp]
    exact ⟨_, exec_rti_of_priv hpriv, rfl, s.reg_returnFromFrame_sp, fun _ hq => State.reg_returnFromFrame_ne hq,
      rfl, rfl, fun _ => rfl⟩
  · rw [← State.instrAddr_eq_wrapSum]
    exact exec_rti_of_not_priv hpriv

end Sys2Proof.Machine
end

section
/-! PROOF. The exceptions family (spec/60_exceptions.md R200 to R211). What a step answers is said once: a next state, or
one of the two faults with the word and the mode that cause it. From it follow when each fault is raised, and that a run
of more steps is the run of fewer, resumed only where it is still running. -/

namespace Sys2Proof.Machine

/-! ## The mode along a run (R211) -/

/-- R211. Unprivileged, RTI answers no next state, and only RTI writes the mode. -/
theorem priv_step_of_not_priv {s t : State} (hpriv : s.priv = false) (h : step s = .next t) : t.priv = false := by
  obtain ⟨i, -, hexec⟩ := step_next_inv h
  cases exec_next_shape hexec with
  | result | jump | stay | link | store => exact hpriv
  | frame _ hp => exact absurd hp (by simp [hpriv])

/-- What every step keeps holds after every run that answers a state. -/
theorem run_keeps {M : Host.Core} {P : M.State → Prop} (hkeep : ∀ s t, P s → M.step s = .next t → P t) (k : Nat)
    {s t : M.State} (hs : P s) (h : M.run k s = .next t) : P t := by
  induction k generalizing s with
  | zero =>
    obtain rfl := Host.Outcome.next.inj h
    exact hs
  | succ k ih =>
    rw [Host.Core.run] at h
    split at h
    · next u hu => exact ih (hkeep s u hs hu) h
    · cases h
    · cases h

/-- Settles O27: that PRIV is 0 is kept by every step, hence by every run. -/
theorem privilegeNeverRises : Obligations.PrivilegeNeverRises := fun k _ _ hpriv h =>
  run_keeps (M := core) (P := fun s : State => s.priv = false) (fun _ _ => priv_step_of_not_priv) k hpriv h

/-! ## What a step answers (R200 to R202) -/

/-- R201. A word of the table of illegal words is reported with the address it was fetched from. -/
theorem step_of_illegalByTable {s : State} (h : illegalByTable (s.read s.pc) = true) :
    step s = .fault (.illegalOpcode (s.read s.pc) s.pc) := by
  rw [step, State.fetchWord, invoke, (illegalWordsAreTheTable _).2 h, State.instrAddr_advance, raise]

/-- R202. An RTI fetched with PRIV = 0 is reported with the address it was fetched from. -/
theorem step_of_rti_of_not_priv {s : State} (hword : s.read s.pc = 0x8000#16) (hpriv : s.priv = false) :
    step s = .fault (.privilegeViolation s.pc) := by
  have hdecode : decode (s.read s.pc) = .ok .rti := hword ▸ rfl
  rw [step_of_decode hdecode, exec_rti_of_not_priv (s := s.advance) hpriv, State.instrAddr_advance]

/-- R208. Every instruction completes, but for RTI with PRIV = 0. -/
theorem exists_exec_eq_next {i : Instr} {s : State} (h : i ≠ .rti ∨ s.priv = true) : ∃ t, exec i s = .next t := by
  by_cases hi : i = .rti
  · subst hi
    exact ⟨_, exec_rti_of_priv (h.resolve_left fun hne => hne rfl)⟩
  · obtain ⟨t, hexec, -⟩ := modeGatesRtiOnly i s s.priv hi
    exact ⟨t, hexec⟩

/-- R200, R208. What a step can answer: the word is an instruction that completes, or is illegal, or is an RTI fetched
with PRIV = 0. -/
theorem step_cases (s : State) :
    (∃ t, step s = .next t) ∨
    (illegalByTable (s.read s.pc) = true ∧ step s = .fault (.illegalOpcode (s.read s.pc) s.pc)) ∨
    ((s.read s.pc = 0x8000#16 ∧ s.priv = false) ∧ step s = .fault (.privilegeViolation s.pc)) := by
  cases hdecode : decode (s.read s.pc) with
  | error reason =>
    have htable := (illegalWordsAreTheTable _).1 hdecode
    exact .inr (.inl ⟨htable, step_of_illegalByTable htable⟩)
  | ok i =>
    by_cases h : i ≠ .rti ∨ s.priv = true
    · obtain ⟨t, hexec⟩ := exists_exec_eq_next (s := s.advance) h
      exact .inl ⟨t, (step_of_decode hdecode).trans hexec⟩
    · obtain ⟨rfl, hpriv⟩ : i = .rti ∧ s.priv = false := by simpa using h
      have hword := eq_of_decode_rti hdecode
      exact .inr (.inr ⟨⟨hword, hpriv⟩, step_of_rti_of_not_priv hword hpriv⟩)

/-- R201, R202. A step that faults answers one of the two faults, and met its condition. -/
theorem step_fault_inv {s : State} {f : Fault} (h : step s = .fault f) :
    (illegalByTable (s.read s.pc) = true ∧ f = .illegalOpcode (s.read s.pc) s.pc) ∨
    ((s.read s.pc = 0x8000#16 ∧ s.priv = false) ∧ f = .privilegeViolation s.pc) := by
  simpa [h] using step_cases s

/-- Settles O34: the table's words are the decoder's rejections, and no other answer of a step is this fault. -/
theorem illegalOpcodeOnTableWordsOnly : Obligations.IllegalOpcodeOnTableWordsOnly := by
  refine fun s => ⟨step_of_illegalByTable, fun w a h => ?_⟩
  obtain ⟨htable, hfault⟩ | ⟨-, hfault⟩ := step_fault_inv h
  · exact ⟨htable, Fault.illegalOpcode.inj hfault⟩
  · cases hfault

/-- Settles O35: the answers of a step, and the one word and mode in which an instruction faults. -/
theorem onlyTwoFaultsAndWhen : Obligations.OnlyTwoFaultsAndWhen := by
  refine ⟨fun _ _ => exists_exec_eq_next, fun s => ⟨?_, fun h => ?_, fun ⟨hword, hpriv⟩ => ?_⟩⟩
  · exact (step_cases s).imp_right (Or.imp And.right And.right)
  · obtain ⟨-, hfault⟩ | ⟨hrti, -⟩ := step_fault_inv h
    · cases hfault
    · exact hrti
  · exact step_of_rti_of_not_priv hword hpriv

/-! ## Where a run stops (R203, R204) -/

theorem step_next_or_fault (s : State) : (∃ t, step s = .next t) ∨ ∃ f, step s = .fault f :=
  (step_cases s).imp_right fun h => h.elim (fun hf => ⟨_, hf.2⟩) fun hf => ⟨_, hf.2⟩

section
variable {endOfRun : State → Bool} {s : State}

theorem runUntil_of_endOfRun (h : endOfRun s = true) (k : Nat) : runUntil endOfRun k s = .ended s := by
  cases k <;> simp [runUntil, h]

theorem runUntil_zero_of_not_endOfRun (h : endOfRun s = false) : runUntil endOfRun 0 s = .running s := by
  simp [runUntil, h]

theorem runUntil_succ_of_next (h : endOfRun s = false) {t : State} (hstep : step s = .next t) (k : Nat) :
    runUntil endOfRun (k + 1) s = runUntil endOfRun k t := by
  simp [runUntil, h, hstep]

/-- R203, R204. A fault ends the run in the state at entry to the core. -/
theorem runUntil_succ_of_fault (h : endOfRun s = false) {f : Fault} (hstep : step s = .fault f) (k : Nat) :
    runUntil endOfRun (k + 1) s = .faulted f s.advance := by
  simp [runUntil, h, hstep]

end

/-- At most `j` steps more: a run that has ended, for whatever reason, is not resumed. -/
def RunEnd.resume (endOfRun : State → Bool) (j : Nat) : RunEnd → RunEnd
  | .running u => runUntil endOfRun j u
  | r => r

@[simp] theorem RunEnd.resume_running (endOfRun : State → Bool) (j : Nat) (u : State) :
    (RunEnd.running u).resume endOfRun j = runUntil endOfRun j u := rfl
@[simp] theorem RunEnd.resume_ended (endOfRun : State → Bool) (j : Nat) (u : State) :
    (RunEnd.ended u).resume endOfRun j = .ended u := rfl
@[simp] theorem RunEnd.resume_faulted (endOfRun : State → Bool) (j : Nat) (f : Fault) (u : State) :
    (RunEnd.faulted f u).resume endOfRun j = .faulted f u := rfl

/-- R204, R234. A run of `k + j` steps is the run of `k` steps, resumed for `j` more. -/
theorem runUntil_add (endOfRun : State → Bool) (k j : Nat) (s : State) :
    runUntil endOfRun (k + j) s = (runUntil endOfRun k s).resume endOfRun j := by
  induction k generalizing s with
  | zero =>
    cases hend : endOfRun s with
    | true => rw [runUntil_of_endOfRun hend, runUntil_of_endOfRun hend, RunEnd.resume_ended]
    | false => rw [runUntil_zero_of_not_endOfRun hend, RunEnd.resume_running, Nat.zero_add]
  | succ k ih =>
    rw [Nat.succ_add]
    cases hend : endOfRun s with
    | true => rw [runUntil_of_endOfRun hend, runUntil_of_endOfRun hend, RunEnd.resume_ended]
    | false =>
      obtain ⟨t, hstep⟩ | ⟨f, hstep⟩ := step_next_or_fault s
      · rw [runUntil_succ_of_next hend hstep, runUntil_succ_of_next hend hstep, ih]
      · rw [runUntil_succ_of_fault hend hstep, runUntil_succ_of_fault hend hstep, RunEnd.resume_faulted]

/-- Settles O36: the fault leaves the advanced state, and neither kind of end is resumed. -/
theorem runStopsAtFirstFault : Obligations.RunStopsAtFirstFault := by
  refine fun endOfRun => ⟨fun k s f hend hstep => ?_, fun j k s u f h => ?_, fun j k s u h => ?_⟩
  · rw [runUntil_succ_of_fault hend hstep, State.advance_eq]
  · rw [runUntil_add, h, RunEnd.resume_faulted]
  · rw [runUntil_add, h, RunEnd.resume_ended]

end Sys2Proof.Machine
end

section
/-! PROOF. The reset family (spec/70_reset_and_hazards.md R231, R234). What a run's answer says of the state it is in is
one predicate, which every answer of `runUntil` meets. -/

namespace Sys2Proof.Machine

/-! ## The ends of a run (R234) -/

/-- R234. What an answer tells of its state: `END_OF_RUN` holds in a state that ended the run and not in one still
running, and a fault is that of a step, left with the pc advanced. A refusal is no answer. -/
def RunEnd.Justified (endOfRun : State → Bool) : RunEnd → Prop
  | .ended u => endOfRun u = true
  | .faulted f u => ∃ v, step v = .fault f ∧ u = v.advance
  | .refused _ _ => False
  | .running u => endOfRun u = false

section
variable {endOfRun : State → Bool} {f : Fault} {r : Refusal} {u : State}

@[simp] theorem RunEnd.justified_ended : (RunEnd.ended u).Justified endOfRun ↔ endOfRun u = true := .rfl
@[simp] theorem RunEnd.justified_faulted :
    (RunEnd.faulted f u).Justified endOfRun ↔ ∃ v, step v = .fault f ∧ u = v.advance := .rfl
@[simp] theorem RunEnd.not_justified_refused : ¬ (RunEnd.refused r u).Justified endOfRun := id
@[simp] theorem RunEnd.justified_running : (RunEnd.running u).Justified endOfRun ↔ endOfRun u = false := .rfl

end

/-- R234. The ways a run ends, by induction on the steps allowed. -/
theorem justified_runUntil (endOfRun : State → Bool) (k : Nat) (s : State) :
    (runUntil endOfRun k s).Justified endOfRun := by
  induction k generalizing s with
  | zero =>
    cases hend : endOfRun s with
    | true => rwa [runUntil_of_endOfRun hend, RunEnd.justified_ended]
    | false => rwa [runUntil_zero_of_not_endOfRun hend, RunEnd.justified_running]
  | succ k ih =>
    cases hend : endOfRun s with
    | true => rwa [runUntil_of_endOfRun hend, RunEnd.justified_ended]
    | false =>
      obtain ⟨t, hstep⟩ | ⟨f, hstep⟩ := step_next_or_fault s
      · rw [runUntil_succ_of_next hend hstep]
        exact ih t
      · rw [runUntil_succ_of_fault hend hstep, RunEnd.justified_faulted]
        exact ⟨s, hstep, rfl⟩

/-- A run of one step more that answers a state is a step that answers one, and the run from there. -/
theorem run_succ_next_inv {M : Host.Core} {k : Nat} {s t : M.State} (h : M.run (k + 1) s = .next t) :
    ∃ u, M.step s = .next u ∧ M.run k u = .next t := by
  rw [Host.Core.run] at h
  split at h
  · next u hstep => exact ⟨u, hstep, h⟩
  · cases h
  · cases h

/-- A run that nothing ends is the host's run, in the state it answers. -/
theorem runUntil_eq_running_of_run {endOfRun : State → Bool} (hend : ∀ u, endOfRun u = false) (k : Nat) {s t : State}
    (h : Host.Core.run core k s = .next t) : runUntil endOfRun k s = .running t := by
  induction k generalizing s with
  | zero =>
    obtain rfl := Host.Outcome.next.inj h
    exact runUntil_zero_of_not_endOfRun (hend _)
  | succ k ih =>
    obtain ⟨u, hstep, hrun⟩ := run_succ_next_inv h
    exact (runUntil_succ_of_next (hend s) hstep k).trans (ih hrun)

/-- Settles O37: the two ends are `runUntil`'s equations, and what an answer tells is `justified_runUntil`. -/
theorem runEndsByPredicateOrFaultOnly : Obligations.RunEndsByPredicateOrFaultOnly := by
  intro endOfRun k s
  have hjust := justified_runUntil endOfRun k s
  refine ⟨fun hend => runUntil_of_endOfRun hend k, fun f hend hstep => runUntil_succ_of_fault hend hstep k,
    fun u h => ?_, fun u f h => ?_, fun u r h => ?_, fun ⟨t, hrun⟩ hend => ⟨t, runUntil_eq_running_of_run hend k hrun⟩⟩
  · rwa [h, RunEnd.justified_ended] at hjust
  · rwa [h, RunEnd.justified_faulted] at hjust
  · rw [h] at hjust
    exact RunEnd.not_justified_refused hjust

/-! ## Reset (R231) -/

/-- R231. To advance the reset state's pc is to reset with the pc after RESET_PC. -/
theorem State.advance_resetWith (r : ResetParams) :
    (State.resetWith r).advance = State.resetWith { r with pc := r.pc + 1#16 } := rfl

/-- Settles O51: the fields are the parameters', and the first step fetches through the pc, as every step does. -/
theorem resetTakesEveryValueFromParameters : Obligations.ResetTakesEveryValueFromParameters := by
  refine fun r => ⟨rfl, rfl, rfl, rfl, rfl, ?_⟩
  have hfetch : (State.resetWith r).read (State.resetWith r).pc = Memory.read r.mem r.pc := rfl
  rw [step_of_read_pc hfetch, State.advance_resetWith]

end Sys2Proof.Machine
end
